-- ==== Sys2Proof/Word.lean ====
section
/-! DEFINITION. The machine word and its plainest arithmetic (spec/00_scope.md section 6, spec/10_state.md R10). -/

namespace Sys2Proof

/-- A Word: "16-bit unsigned integer value" (R10), the unit of registers and of memory. -/
abbrev Word := BitVec 16

/-- `s16(v)`: the two's-complement signed value of a word, -32768 to 32767 (00_scope.md section 6). -/
abbrev s16 (v : Word) : Int := v.toInt

/-- `w16(t) = t mod 65536`: brings an integer back to a word, also for negative `t` (00_scope.md section 6). -/
abbrev w16 (t : Int) : Word := BitVec.ofInt 16 t

/-- The eight general registers, in the order of their numbers 0 to 7 (R11). -/
inductive Reg where
  | A | B | C | X | Y | Z | I | J
  deriving DecidableEq, Repr

/-- The contents of the eight general registers (R11); none is hard-wired, banked or aliased. -/
structure Regs where
  A : Word
  B : Word
  C : Word
  X : Word
  Y : Word
  Z : Word
  I : Word
  J : Word
  deriving DecidableEq, Repr, Inhabited

/-- The source's Register File: the eleven words a device sees in an HWI dispatch (R218, 90_conflicts.md C9). -/
structure RegFile where
  x  : Regs
  sp : Word
  pc : Word
  ex : Word
  deriving DecidableEq, Repr, Inhabited

/-- Memory (R23, R40): the listed cells, a word address and the word it holds; an unlisted address holds
0x0000, which is what "zero-initialized" memory holds (R25). The machine has no byte (R43), so the cell is a
word: log entry 1. Its canonical form is `Sys2Proof.Machine.Memory.wf`. -/
abbrev Memory := List (Nat × Word)

/-- A device's own state, opaque to the core (R24): any list of words. -/
abbrev DevState := List Word

end Sys2Proof
end

