-- ==== Sys2Proof/Syntax.lean ====
section
/-! DEFINITION. Instructions and operands as syntax: one constructor of `Instr` for each row of
spec/opcode_table.json. -/

namespace Sys2Proof

/-- An operand, by its operand code (R73), with its extra word where the code has one. -/
inductive Operand where
  /-- 0x00 to 0x07: the register. -/
  | reg (r : Reg)
  /-- 0x08 to 0x0f: `[register]`. -/
  | ind (r : Reg)
  /-- 0x10 to 0x17: `[next word + register]`. -/
  | indNext (r : Reg) (n : Word)
  /-- 0x18: POP as operand a, PUSH as operand b (R83). -/
  | stack
  /-- 0x19: PEEK. -/
  | peek
  /-- 0x1a: PICK n. -/
  | pick (n : Word)
  /-- 0x1b: SP. -/
  | sp
  /-- 0x1c: PC. -/
  | pc
  /-- 0x1d: EX. -/
  | ex
  /-- 0x1e: `[next word]`. -/
  | abs (n : Word)
  /-- 0x1f: the next word as a literal. -/
  | next (n : Word)
  /-- 0x20 to 0x3f: the inline literal, held as its value (R76). -/
  | inline (v : Word)
  deriving DecidableEq, Repr

/-- The 37 instructions (R2). In basic form `b` is the destination operand and `a` the source (R71, R84). -/
inductive Instr where
  | set (b a : Operand)
  | add (b a : Operand)
  | sub (b a : Operand)
  | mul (b a : Operand)
  | mli (b a : Operand)
  | div (b a : Operand)
  | dvi (b a : Operand)
  | mod (b a : Operand)
  | mdi (b a : Operand)
  | and (b a : Operand)
  | bor (b a : Operand)
  | xor (b a : Operand)
  | shr (b a : Operand)
  | asr (b a : Operand)
  | shl (b a : Operand)
  | ifb (b a : Operand)
  | ifc (b a : Operand)
  | ife (b a : Operand)
  | ifn (b a : Operand)
  | ifg (b a : Operand)
  | ifa (b a : Operand)
  | ifl (b a : Operand)
  | ifu (b a : Operand)
  | adx (b a : Operand)
  | sbx (b a : Operand)
  | sti (b a : Operand)
  | std (b a : Operand)
  | jsr (a : Operand)
  | hcf (a : Operand)
  | int (a : Operand)
  | iag (a : Operand)
  | ias (a : Operand)
  | rfi (a : Operand)
  | iaq (a : Operand)
  | hwn (a : Operand)
  | hwq (a : Operand)
  | hwi (a : Operand)
  deriving DecidableEq, Repr

/-- What a first word and the words after it stand for. No word is undecodable (R72): it is one of the 37
instructions or a reserved encoding of one of the two forms (R80), named here. -/
inductive Decoded where
  | instr (i : Instr)
  /-- Basic form with a reserved opcode `o` (0x18, 0x19, 0x1c, 0x1d). -/
  | reservedBasic (o : BitVec 5) (b a : Operand)
  /-- Special form with a reserved opcode `s`. -/
  | reservedSpecial (s : BitVec 5) (a : Operand)
  deriving DecidableEq, Repr

end Sys2Proof
end

