-- ==== Sys2Proof/WellFormed.lean ====
section
/-! DEFINITION. Which instructions have an encoding. -/

namespace Sys2Proof

/-- An inline literal is one of -1 to 30 (R76); every other operand can be written in the six-bit field a. -/
def Operand.wfA : Operand → Bool
  | .inline v => decide ((v + 1).toNat < 32)
  | _ => true

/-- The five-bit field b has no inline literal: operand b takes the codes 0x00 to 0x1f only (R75). -/
def Operand.wfB : Operand → Bool
  | .inline _ => false
  | _ => true

/-- The two operands of a basic-form instruction are encodable. -/
def Operand.wfPair (b a : Operand) : Bool := b.wfB && a.wfA

/-- The instruction has an encoding. -/
def Instr.wf : Instr → Bool
  | .set b a | .add b a | .sub b a | .mul b a | .mli b a | .div b a | .dvi b a | .mod b a | .mdi b a
  | .and b a | .bor b a | .xor b a | .shr b a | .asr b a | .shl b a
  | .ifb b a | .ifc b a | .ife b a | .ifn b a | .ifg b a | .ifa b a | .ifl b a | .ifu b a
  | .adx b a | .sbx b a | .sti b a | .std b a => Operand.wfPair b a
  | .jsr a | .hcf a | .int a | .iag a | .ias a | .rfi a | .iaq a | .hwn a | .hwq a | .hwi a => a.wfA

end Sys2Proof
end

