-- ==== Sys2Proof/Decode.lean ====
section
/-! DEFINITION. The decoder, total on any words, and after it the encoder, both from the tables of
spec/30_encoding.md. No semantic rule reads an opcode number, so the two opcode maps (`basicInstr`,
`specialInstr` with `Instr.opcode`) can be corrected alone, as that file's warning asks. -/

namespace Sys2Proof

/-! ### Fields of the first word (R71) -/

/-- `o = w[4:0]`. -/
def fieldO (w : Word) : Nat := w.toNat % 32

/-- `b = s = w[9:5]`. -/
def fieldB (w : Word) : Nat := w.toNat / 32 % 32

/-- `a = w[15:10]`. -/
def fieldA (w : Word) : Nat := w.toNat / 1024

/-- The extra words an operand code consumes: 1 for 0x10 to 0x17, 0x1a, 0x1e, 0x1f, else 0 (R81). -/
def xw (c : Nat) : Nat :=
  if (0x10 ≤ c ∧ c ≤ 0x17) ∨ c = 0x1a ∨ c = 0x1e ∨ c = 0x1f then 1 else 0

/-- How many extra words follow the first word; it depends on the form and the operand codes alone (R81). -/
def extraWords (w : Word) : Nat :=
  if fieldO w = 0 then xw (fieldA w) else xw (fieldA w) + xw (fieldB w)

/-- `length(w)` of R81: 1, 2 or 3. -/
def wordLength (w : Word) : Nat := 1 + extraWords w

/-- Whether the first word is a conditional instruction: basic opcodes 0x10 to 0x17 (R105). -/
def isConditional (w : Word) : Bool := decide (0x10 ≤ fieldO w ∧ fieldO w ≤ 0x17)

/-! ### Operand codes (R73) -/

/-- The register of number `n` (R11). -/
def Reg.ofCode : Nat → Reg
  | 0 => .A
  | 1 => .B
  | 2 => .C
  | 3 => .X
  | 4 => .Y
  | 5 => .Z
  | 6 => .I
  | _ => .J

/-- The number of a register (R11). -/
def Reg.code : Reg → Nat
  | .A => 0
  | .B => 1
  | .C => 2
  | .X => 3
  | .Y => 4
  | .Z => 5
  | .I => 6
  | .J => 7

/-- The operand of code `c`, 0x00 to 0x3f, with `x` the word it consumes if it consumes one (R73, R76, R77). -/
def decodeOperand (c : Nat) (x : Word) : Operand :=
  if c < 0x08 then .reg (Reg.ofCode c)
  else if c < 0x10 then .ind (Reg.ofCode (c - 0x08))
  else if c < 0x18 then .indNext (Reg.ofCode (c - 0x10)) x
  else if c = 0x18 then .stack
  else if c = 0x19 then .peek
  else if c = 0x1a then .pick x
  else if c = 0x1b then .sp
  else if c = 0x1c then .pc
  else if c = 0x1d then .ex
  else if c = 0x1e then .abs x
  else if c = 0x1f then .next x
  else .inline (w16 ((c : Int) - 0x21))

/-! ### Opcodes (R78, R79, D1) -/

/-- The instruction of basic opcode `o`, or none where `o` is reserved (R78, R80). -/
def basicInstr (o : Nat) (b a : Operand) : Option Instr :=
  match o with
  | 0x01 => some (.set b a)
  | 0x02 => some (.add b a)
  | 0x03 => some (.sub b a)
  | 0x04 => some (.mul b a)
  | 0x05 => some (.mli b a)
  | 0x06 => some (.div b a)
  | 0x07 => some (.dvi b a)
  | 0x08 => some (.mod b a)
  | 0x09 => some (.mdi b a)
  | 0x0a => some (.and b a)
  | 0x0b => some (.bor b a)
  | 0x0c => some (.xor b a)
  | 0x0d => some (.shr b a)
  | 0x0e => some (.asr b a)
  | 0x0f => some (.shl b a)
  | 0x10 => some (.ifb b a)
  | 0x11 => some (.ifc b a)
  | 0x12 => some (.ife b a)
  | 0x13 => some (.ifn b a)
  | 0x14 => some (.ifg b a)
  | 0x15 => some (.ifa b a)
  | 0x16 => some (.ifl b a)
  | 0x17 => some (.ifu b a)
  | 0x1a => some (.adx b a)
  | 0x1b => some (.sbx b a)
  | 0x1e => some (.sti b a)
  | 0x1f => some (.std b a)
  | _ => none

/-- The instruction of special opcode `s`, or none where `s` is reserved (R79, R80). -/
def specialInstr (s : Nat) (a : Operand) : Option Instr :=
  match s with
  | 0x01 => some (.jsr a)
  | 0x07 => some (.hcf a)
  | 0x08 => some (.int a)
  | 0x09 => some (.iag a)
  | 0x0a => some (.ias a)
  | 0x0b => some (.rfi a)
  | 0x0c => some (.iaq a)
  | 0x10 => some (.hwn a)
  | 0x11 => some (.hwq a)
  | 0x12 => some (.hwi a)
  | _ => none

/-! ### The decoder -/

/-- The instruction or reserved encoding whose first word is `w`, `x1` and `x2` being the two words after it:
operand a takes its extra word first, operand b the one after (R74). The words it does not consume play no part. -/
def decode (w x1 x2 : Word) : Decoded :=
  let a := decodeOperand (fieldA w) x1
  if fieldO w = 0 then
    match specialInstr (fieldB w) a with
    | some i => .instr i
    | none => .reservedSpecial (BitVec.ofNat 5 (fieldB w)) a
  else
    let b := decodeOperand (fieldB w) (if xw (fieldA w) = 1 then x2 else x1)
    match basicInstr (fieldO w) b a with
    | some i => .instr i
    | none => .reservedBasic (BitVec.ofNat 5 (fieldO w)) b a

/-- As `decode`, from the words of a list; a word past its end counts as zero. -/
def decodeWords (ws : List Word) : Decoded := decode (ws.getD 0 0) (ws.getD 1 0) (ws.getD 2 0)

/-! ### The encoder -/

/-- The operand code of an operand (R73). -/
def Operand.code : Operand → Nat
  | .reg r => r.code
  | .ind r => 0x08 + r.code
  | .indNext r _ => 0x10 + r.code
  | .stack => 0x18
  | .peek => 0x19
  | .pick _ => 0x1a
  | .sp => 0x1b
  | .pc => 0x1c
  | .ex => 0x1d
  | .abs _ => 0x1e
  | .next _ => 0x1f
  | .inline v => (v + 0x21).toNat

/-- The extra word of an operand, if it has one (R73, R77). -/
def Operand.extra : Operand → List Word
  | .indNext _ n | .pick n | .abs n | .next n => [n]
  | _ => []

/-- The opcode number of an instruction: `o` in basic form, `s` in special form (R78, R79). -/
def Instr.opcode : Instr → Nat
  | .set _ _ => 0x01
  | .add _ _ => 0x02
  | .sub _ _ => 0x03
  | .mul _ _ => 0x04
  | .mli _ _ => 0x05
  | .div _ _ => 0x06
  | .dvi _ _ => 0x07
  | .mod _ _ => 0x08
  | .mdi _ _ => 0x09
  | .and _ _ => 0x0a
  | .bor _ _ => 0x0b
  | .xor _ _ => 0x0c
  | .shr _ _ => 0x0d
  | .asr _ _ => 0x0e
  | .shl _ _ => 0x0f
  | .ifb _ _ => 0x10
  | .ifc _ _ => 0x11
  | .ife _ _ => 0x12
  | .ifn _ _ => 0x13
  | .ifg _ _ => 0x14
  | .ifa _ _ => 0x15
  | .ifl _ _ => 0x16
  | .ifu _ _ => 0x17
  | .adx _ _ => 0x1a
  | .sbx _ _ => 0x1b
  | .sti _ _ => 0x1e
  | .std _ _ => 0x1f
  | .jsr _ => 0x01
  | .hcf _ => 0x07
  | .int _ => 0x08
  | .iag _ => 0x09
  | .ias _ => 0x0a
  | .rfi _ => 0x0b
  | .iaq _ => 0x0c
  | .hwn _ => 0x10
  | .hwq _ => 0x11
  | .hwi _ => 0x12

/-- Operand a of an instruction. -/
def Instr.opA : Instr → Operand
  | .set _ a | .add _ a | .sub _ a | .mul _ a | .mli _ a | .div _ a | .dvi _ a | .mod _ a | .mdi _ a
  | .and _ a | .bor _ a | .xor _ a | .shr _ a | .asr _ a | .shl _ a
  | .ifb _ a | .ifc _ a | .ife _ a | .ifn _ a | .ifg _ a | .ifa _ a | .ifl _ a | .ifu _ a
  | .adx _ a | .sbx _ a | .sti _ a | .std _ a
  | .jsr a | .hcf a | .int a | .iag a | .ias a | .rfi a | .iaq a | .hwn a | .hwq a | .hwi a => a

/-- Operand b of a basic-form instruction; a special-form instruction has none (R75). -/
def Instr.opB : Instr → Option Operand
  | .set b _ | .add b _ | .sub b _ | .mul b _ | .mli b _ | .div b _ | .dvi b _ | .mod b _ | .mdi b _
  | .and b _ | .bor b _ | .xor b _ | .shr b _ | .asr b _ | .shl b _
  | .ifb b _ | .ifc b _ | .ife b _ | .ifn b _ | .ifg b _ | .ifa b _ | .ifl b _ | .ifu b _
  | .adx b _ | .sbx b _ | .sti b _ | .std b _ => some b
  | .jsr _ | .hcf _ | .int _ | .iag _ | .ias _ | .rfi _ | .iaq _ | .hwn _ | .hwq _ | .hwi _ => none

/-- The first word: `aaaaaabbbbbooooo`, or `aaaaaasssss00000` in special form (R71). -/
def Instr.firstWord (i : Instr) : Word :=
  match i.opB with
  | some b => BitVec.ofNat 16 (i.opA.code * 1024 + b.code * 32 + i.opcode)
  | none => BitVec.ofNat 16 (i.opA.code * 1024 + i.opcode * 32)

/-- The words of an instruction: the first word, operand a's extra word, operand b's (R74, R91). -/
def encode (i : Instr) : List Word :=
  i.firstWord :: (i.opA.extra ++ (i.opB.map Operand.extra).getD [])

/-- The instruction read from an instruction of the opcode table whose bits are `w`, bit 0 being the least
significant bit of the first word and every bit above `nbits` zero; none where the word is reserved. -/
def decodeTableWord (nbits w : Nat) : Option Instr :=
  let w := w % 2 ^ nbits
  match decode (BitVec.ofNat 16 w) (BitVec.ofNat 16 (w / 2 ^ 16)) (BitVec.ofNat 16 (w / 2 ^ 32)) with
  | .instr i => some i
  | .reservedBasic _ _ _ => none
  | .reservedSpecial _ _ => none

end Sys2Proof
end

