-- ==== Sys2Proof/Config.lean ====
section
/-! DEFINITION. What the spec fixes as a parameter, and the free functions that stand for what it leaves open. -/

namespace Sys2Proof

/-- What a device does in reaction to a notification or a tick (R50): its new state, raw memory writes in
order, interrupt messages in order. -/
structure Reaction where
  dev    : DevState
  writes : List (Word × Word)
  irqs   : List Word
  deriving DecidableEq, Repr, Inhabited

/-- What a device does in an HWI dispatch (R218): also a new register file. The new memory is given as the
raw writes that make it (log entry 8). -/
structure DispatchReaction where
  dev    : DevState
  regs   : RegFile
  writes : List (Word × Word)
  irqs   : List Word
  deriving DecidableEq, Repr, Inhabited

/-- A device's 32-bit id, 16-bit version, 32-bit manufacturer (R50, R216). -/
structure Descriptor where
  id           : BitVec 32
  version      : Word
  manufacturer : BitVec 32
  deriving DecidableEq, Repr, Inhabited

namespace Config

/-- IRQ_QUEUE_MAX (R7, D15). -/
def irqQueueMax : Nat := 256

/-- MEM_WORDS (R6). -/
def memWords : Nat := 65536

/-- DEVICES holds at most this many, so that the count is a Word (R214). -/
def maxDevices : Nat := 65535

/-- The reaction function a code names, for `onSet` (devstate, addr, v): an open parameter (R50, U6), a free
function of its arguments (log entry 2). -/
opaque onSet : Nat → DevState × Word × Word → Reaction

/-- As `onSet`, for `onGet` (devstate, addr, v). -/
opaque onGet : Nat → DevState × Word × Word → Reaction

/-- As `onSet`, for `tick` (devstate, mem). -/
opaque tick : Nat → DevState × Memory → Reaction

/-- As `onSet`, for `interrupt` (devstate, registers, mem). -/
opaque interrupt : Nat → DevState × RegFile × Memory → DispatchReaction

end Config

end Sys2Proof
end

