-- ==== Sys2Proof/Machine/State.lean ====
section
/-! DEFINITION. The state of one core (R29), plain data; locations; why a step can stop; reset (R25). -/

namespace Sys2Proof.Machine

/-- A reaction function as plain data: a finite table of answers, and the code of a free function of `Config`
that answers every input the table does not list. Every deterministic device function is one of these (an
empty table and a code); a table lets a run with a concrete device be written out (log entry 2). -/
structure Handler (ι ρ : Type) where
  table : List (ι × ρ)
  code  : Nat
  deriving DecidableEq, Repr

/-- A device record (R50), each capability optional. It is configuration: no rule changes it (R24). The
device's own state stands in `State.dev`. -/
structure Device where
  /-- The claimed closed interval of word addresses, `lo ≤ hi`, if it claims one (R49). -/
  range      : Option (Word × Word)
  /-- Reaction to (devstate, addr, v) after a write in the range. -/
  onSet      : Option (Handler (DevState × Word × Word) Reaction)
  /-- Reaction to (devstate, addr, v) after a read in the range. -/
  onGet      : Option (Handler (DevState × Word × Word) Reaction)
  /-- Reaction to (devstate, registers, mem) in an HWI dispatch. -/
  interrupt  : Option (Handler (DevState × RegFile × Memory) DispatchReaction)
  /-- Reaction to (devstate, mem) when the external scheduler ticks it. -/
  tick       : Option (Handler (DevState × Memory) Reaction)
  descriptor : Descriptor
  deriving DecidableEq, Repr

/-- The diagnostic event `InvalidInstruction(addr, word)` of R126, R230. -/
structure Diag where
  addr : Word
  word : Word
  deriving DecidableEq, Repr

/-- The state tuple of R29, with the registry DEVICES (R24) and the list of diagnostics emitted so far
(the model's own field: log entry 6). -/
structure State where
  /-- General registers A B C X Y Z I J (R11). -/
  x       : Regs
  /-- Stack pointer (R13). -/
  sp      : Word
  /-- Program counter (R14). -/
  pc      : Word
  /-- Overflow, carry, extend (R15). -/
  ex      : Word
  /-- Interrupt address (R17). -/
  ia      : Word
  /-- Interrupt queue, oldest first (R18). -/
  irqq    : List Word
  /-- Interrupt-queueing flag (R19). -/
  iaq     : Bool
  /-- Skip state (R20). -/
  skip    : Bool
  /-- Run flag (R21). -/
  running : Bool
  /-- Cycle counter, unbounded (R22). -/
  cycles  : Nat
  /-- Memory (R23). -/
  mem     : Memory
  /-- Each device's own state, by device number (R24). -/
  dev     : List DevState
  /-- The Device Registry, by device number; configuration (R24, R50). -/
  devices : List Device
  /-- Diagnostics emitted, oldest first (R230); read by no rule. -/
  diags   : List Diag
  deriving DecidableEq, Repr

/-- A storage location, the resolver's result (00_scope.md section 6, R26). -/
inductive Loc where
  | reg (r : Reg)
  | sp
  | pc
  | ex
  | mem (addr : Word)
  | lit (v : Word)
  deriving DecidableEq, Repr

/-- The position of an operand, which decides what code 0x18 means (R83). -/
inductive Pos where
  | asA
  | asB
  deriving DecidableEq, Repr

/-- Which notification a memory transaction makes: `onGet` after a read, `onSet` after a write (R45, R46). -/
inductive Access where
  | get
  | set
  deriving DecidableEq, Repr

/-- The points at which the spec gives the machine no next state. -/
inductive Fault where
  /-- Raised by INT and by a device's request when 256 messages already wait (R237, U5). Safe: the spec gives
  no successor state. -/
  | interruptQueueOverflow
  /-- Raised by HWQ and HWI with a device number that names no device (R217, R219, U2). Safe: the spec gives no
  successor state. -/
  | noSuchDevice (n : Word)
  /-- Raised by `step` when `running` = 0: "the core has no step" (R101). It is the terminal state of U18, not
  an error of the program; safe, as nothing is claimed of a next state (log entry 5). -/
  | notRunning
  deriving DecidableEq, Repr

/-- What is turned away. -/
inductive Refusal where
  /-- Raised by an arm of `exec` whose instruction has no meaning yet; no arm raises it now. Safe. -/
  | notModelled (mnemonic : String)
  /-- Raised by `State.construct`: an image of more than 65536 words; "the machine is not constructed" (R262).
  Safe. -/
  | imageTooLong
  /-- Raised by `State.construct`: more than 65535 devices (R214). Safe. -/
  | tooManyDevices
  /-- Raised by `State.construct`: a claimed range with `lo > hi` (R49). Safe. -/
  | illegalRange
  /-- Raised by the environment's `tick k` where device `k` has no tick capability: there is no such move
  (R53). Safe. -/
  | noTick
  deriving DecidableEq, Repr

/-- The state right after reset with the default parameters, DEVICES and IMAGE empty (R25, R260, R261, D27). -/
def State.reset : State where
  x       := ⟨0, 0, 0, 0, 0, 0, 0, 0⟩
  sp      := 0
  pc      := 0
  ex      := 0
  ia      := 0
  irqq    := []
  iaq     := false
  skip    := false
  running := true
  cycles  := 0
  mem     := []
  dev     := []
  devices := []
  diags   := []

end Sys2Proof.Machine
end

