-- ==== Sys2Proof/Machine/Flags.lean ====
section
/-! DEFINITION. The functions of the basic ALU instructions, result and EX together, and the predicates of the
conditional ones. EX is the machine's only status register (R16). Each is computed on exact integers and brought
back to a word at the end (00_scope.md section 6, R160). `va` is the source's value, `vb` the destination's, `e`
the old EX. -/

namespace Sys2Proof.Machine

/-- `t >> 16`, floor (00_scope.md section 6), as a word: the high word of a 32-bit product. -/
def highWord (t : Int) : Word := w16 (t >>> (16 : Nat))

/-- SET (R141). -/
def fSet (va _vb _e : Word) : Word × Word := (va, 0)

/-- ADD (R142). -/
def fAdd (va vb _e : Word) : Word × Word :=
  let t := vb.toNat + va.toNat
  (w16 t, if t > 0xffff then 1 else 0)

/-- SUB (R143). -/
def fSub (va vb _e : Word) : Word × Word :=
  let t : Int := vb.toNat - va.toNat
  (w16 t, if t < 0 then 0xffff else 0)

/-- MUL (R144). -/
def fMul (va vb _e : Word) : Word × Word :=
  let t := vb.toNat * va.toNat
  (w16 t, highWord t)

/-- MLI (R145). -/
def fMli (va vb _e : Word) : Word × Word :=
  let t := s16 vb * s16 va
  (w16 t, highWord t)

/-- DIV (R146); a zero divisor gives 0 and EX 0. -/
def fDiv (va vb _e : Word) : Word × Word :=
  if va = 0 then (0, 0)
  else (w16 (vb.toNat / va.toNat : Nat), w16 (vb.toNat * 65536 / va.toNat : Nat))

/-- DVI (R147): truncating toward zero; a zero divisor gives 0 and EX 0. -/
def fDvi (va vb _e : Word) : Word × Word :=
  if va = 0 then (0, 0)
  else (w16 (Int.tdiv (s16 vb) (s16 va)), w16 (Int.tdiv (s16 vb * 65536) (s16 va)))

/-- MOD (R148). -/
def fMod (va vb _e : Word) : Word × Word :=
  (if va = 0 then 0 else w16 (vb.toNat % va.toNat : Nat), 0)

/-- MDI (R149): the remainder takes the sign of the dividend. -/
def fMdi (va vb _e : Word) : Word × Word :=
  (if va = 0 then 0 else w16 (Int.tmod (s16 vb) (s16 va)), 0)

/-- AND (R150). -/
def fAnd (va vb _e : Word) : Word × Word := (vb &&& va, 0)

/-- BOR (R151). -/
def fBor (va vb _e : Word) : Word × Word := (vb ||| va, 0)

/-- XOR (R152). -/
def fXor (va vb _e : Word) : Word × Word := (vb ^^^ va, 0)

/-- SHR (R153): the count is the whole unsigned word, not masked. -/
def fShr (va vb _e : Word) : Word × Word :=
  (w16 (vb.toNat >>> va.toNat : Nat), w16 ((vb.toNat <<< 16) >>> va.toNat : Nat))

/-- ASR (R154): the sign fills the result; EX follows SHR's formula. -/
def fAsr (va vb _e : Word) : Word × Word :=
  (w16 (s16 vb >>> va.toNat), w16 ((vb.toNat <<< 16) >>> va.toNat : Nat))

/-- SHL (R155). -/
def fShl (va vb _e : Word) : Word × Word :=
  let t := vb.toNat <<< va.toNat
  (w16 t, w16 (t >>> 16 : Nat))

/-- ADX (R156): the old EX enters as an unsigned word. -/
def fAdx (va vb e : Word) : Word × Word :=
  let t := vb.toNat + va.toNat + e.toNat
  (w16 t, if t > 0xffff then 1 else 0)

/-- SBX (R157): the old EX enters as an unsigned word. -/
def fSbx (va vb e : Word) : Word × Word :=
  let t : Int := vb.toNat - va.toNat + e.toNat
  (w16 t, if t < 0 then 0xffff else if t > 0xffff then 1 else 0)

/-- IFB (R181). -/
def pIfb (va vb : Word) : Bool := decide (vb &&& va ≠ 0)

/-- IFC (R182). -/
def pIfc (va vb : Word) : Bool := decide (vb &&& va = 0)

/-- IFE (R183). -/
def pIfe (va vb : Word) : Bool := decide (vb = va)

/-- IFN (R184). -/
def pIfn (va vb : Word) : Bool := decide (vb ≠ va)

/-- IFG (R185), unsigned. -/
def pIfg (va vb : Word) : Bool := decide (vb.toNat > va.toNat)

/-- IFA (R186), signed. -/
def pIfa (va vb : Word) : Bool := decide (s16 vb > s16 va)

/-- IFL (R187), unsigned. -/
def pIfl (va vb : Word) : Bool := decide (vb.toNat < va.toNat)

/-- IFU (R188), signed. -/
def pIfu (va vb : Word) : Bool := decide (s16 vb < s16 va)

end Sys2Proof.Machine
end

