-- ==== Sys2Proof/Machine/Ops.lean ====
section
/-! DEFINITION. The named operations over registers, memory, devices and the interrupt queue; interrupt entry
and the return from one. Every meaning is written over these. -/

namespace Sys2Proof

/-- `x[i]` (R11). -/
def Regs.get (x : Regs) : Reg → Word
  | .A => x.A
  | .B => x.B
  | .C => x.C
  | .X => x.X
  | .Y => x.Y
  | .Z => x.Z
  | .I => x.I
  | .J => x.J

/-- `x[i] <- v` (R11). -/
def Regs.set (x : Regs) (r : Reg) (v : Word) : Regs :=
  match r with
  | .A => { x with A := v }
  | .B => { x with B := v }
  | .C => { x with C := v }
  | .X => { x with X := v }
  | .Y => { x with Y := v }
  | .Z => { x with Z := v }
  | .I => { x with I := v }
  | .J => { x with J := v }

/-! ### Memory: the raw cells (R23, R40) -/

/-- The word a list of cells holds at an address; an unlisted address holds 0x0000 (R25). -/
def Memory.lookup : Memory → Nat → Word
  | [], _ => 0
  | (k, w) :: m, a => if k = a then w else Memory.lookup m a

/-- The cells with the word at an address replaced, in canonical form: sorted, and no cell that holds 0. -/
def Memory.insert : Memory → Nat → Word → Memory
  | [], a, v => if v = 0 then [] else [(a, v)]
  | (k, w) :: m, a, v =>
    if a < k then (if v = 0 then (k, w) :: m else (a, v) :: (k, w) :: m)
    else if a = k then (if v = 0 then m else (a, v) :: m)
    else (k, w) :: Memory.insert m a v

/-- `mem[addr]`: the raw read. -/
def Memory.read (m : Memory) (a : Word) : Word := m.lookup a.toNat

/-- `mem[addr] <- v`: the raw store. -/
def Memory.write (m : Memory) (a v : Word) : Memory := m.insert a.toNat v

/-- Raw stores, in order (R52). -/
def Memory.writeAll : Memory → List (Word × Word) → Memory
  | m, [] => m
  | m, (a, v) :: ws => Memory.writeAll (m.write a v) ws

/-- Addresses strictly rising from `lo` on and inside memory, no cell that holds what an unlisted one reads as. -/
def Memory.wfFrom (lo : Nat) : Memory → Bool
  | [] => true
  | (k, w) :: m => decide (lo ≤ k) && decide (k < Config.memWords) && decide (w ≠ 0) && Memory.wfFrom (k + 1) m

/-- The canonical form: equal memories are equal lists. -/
def Memory.wf (m : Memory) : Bool := m.wfFrom 0

namespace Machine

/-! ### Registers -/

/-- `x[i] <- v`. General registers have no side effects (R11). -/
def State.setReg (s : State) (r : Reg) (v : Word) : State := { s with x := s.x.set r v }

/-- `SP <- v`. -/
def State.setSp (s : State) (v : Word) : State := { s with sp := v }

/-- `PC <- v`. -/
def State.setPc (s : State) (v : Word) : State := { s with pc := v }

/-- `EX <- v`. -/
def State.setEx (s : State) (v : Word) : State := { s with ex := v }

/-- `IA <- v`. -/
def State.setIa (s : State) (v : Word) : State := { s with ia := v }

/-- `iaq <- b`. -/
def State.setIaq (s : State) (b : Bool) : State := { s with iaq := b }

/-- `skip <- b`. -/
def State.setSkip (s : State) (b : Bool) : State := { s with skip := b }

/-- `running <- b`. -/
def State.setRunning (s : State) (b : Bool) : State := { s with running := b }

/-- The interrupt queue replaced. -/
def State.setIrqq (s : State) (q : List Word) : State := { s with irqq := q }

/-- Memory replaced, raw. -/
def State.setMem (s : State) (m : Memory) : State := { s with mem := m }

/-- The state of device `k` replaced. -/
def State.setDev (s : State) (k : Nat) (d : DevState) : State := { s with dev := s.dev.set k d }

/-- `cycles <- cycles + 1` (R127). -/
def State.countCycle (s : State) : State := { s with cycles := s.cycles + 1 }

/-- `diag InvalidInstruction(addr, word)`, collected (R230). -/
def State.addDiag (s : State) (d : Diag) : State := { s with diags := s.diags ++ [d] }

/-- The eleven words of the register file (R218). -/
def State.regFile (s : State) : RegFile := ⟨s.x, s.sp, s.pc, s.ex⟩

/-- The register file replaced, as an HWI dispatch does (R218). -/
def State.setRegFile (s : State) (f : RegFile) : State :=
  { s with x := f.x, sp := f.sp, pc := f.pc, ex := f.ex }

/-! ### The interrupt queue -/

/-- `irq(msg)`: append at the tail; with 256 messages waiting there is no next state (R202, R236, R237). -/
def irq (msg : Word) (s : State) : Except Fault State :=
  if Config.irqQueueMax ≤ s.irqq.length then .error .interruptQueueOverflow
  else .ok (s.setIrqq (s.irqq ++ [msg]))

/-- The requests of one reaction, in the order of its list (R236). -/
def irqAll : List Word → State → Except Fault State
  | [], s => .ok s
  | m :: ms, s => do irqAll ms (← irq m s)

/-! ### Devices and notifications (R45, R46, R49 to R52) -/

/-- The answer of a reaction function: the table's row for the input, else the free function of that code. -/
def Handler.answer {ι ρ : Type} [DecidableEq ι] (h : Handler ι ρ) (free : Nat → ι → ρ) (i : ι) : ρ :=
  match h.table.find? (fun row => decide (row.1 = i)) with
  | some row => row.2
  | none => free h.code i

/-- The device claims a range and the address lies in it (R45, R49). -/
def Device.claims (d : Device) (a : Word) : Bool :=
  match d.range with
  | some r => decide (r.1 ≤ a ∧ a ≤ r.2)
  | none => false

/-- The reaction function a device has for a kind of access. -/
def Device.onAccess (d : Device) : Access → Option (Handler (DevState × Word × Word) Reaction)
  | .get => d.onGet
  | .set => d.onSet

/-- The free function behind a kind of access. -/
def Access.free : Access → Nat → DevState × Word × Word → Reaction
  | .get => Config.onGet
  | .set => Config.onSet

/-- What a device, in state `st`, answers to an access of `a` with value `v`; none where it is not notified. -/
def Device.reaction (d : Device) (acc : Access) (st : DevState) (a v : Word) : Option Reaction :=
  if d.claims a then (d.onAccess acc).map (fun h => h.answer acc.free (st, a, v)) else none

/-- Device `k`'s own state. -/
def State.devState (s : State) (k : Nat) : DevState := s.dev.getD k []

/-- A reaction takes effect: the device's new state, its raw writes, which notify no one (R52), then its
interrupt requests. It has no access to a register. -/
def react (k : Nat) (r : Reaction) (s : State) : Except Fault State :=
  irqAll r.irqs ((s.setDev k r.dev).setMem (s.mem.writeAll r.writes))

/-- Device `k` is notified of an access, if it is to be. -/
def notifyOne (acc : Access) (a v : Word) (k : Nat) (s : State) : Except Fault State :=
  match s.devices[k]? with
  | none => .ok s
  | some d =>
    match d.reaction acc (s.devState k) a v with
    | none => .ok s
    | some r => react k r s

/-- The devices of these numbers are notified in turn. -/
def notify (acc : Access) (a v : Word) : List Nat → State → Except Fault State
  | [], s => .ok s
  | k :: ks, s => do notify acc a v ks (← notifyOne acc a v k s)

/-- Every device whose range contains the address is notified, in registry order (R51). -/
def notifyAll (acc : Access) (a v : Word) (s : State) : Except Fault State :=
  notify acc a v (List.range s.devices.length) s

/-! ### The memory primitives (R45, R46), the instruction stream (R103), the stack (R122, R123) -/

/-- `MemRead(addr, 1)`: the raw content as it was before any notification, then the notifications (R45). -/
def memRead (a : Word) (s : State) : Except Fault (Word × State) := do
  let t ← notifyAll .get a (s.mem.read a) s
  .ok (s.mem.read a, t)

/-- `MemWrite(addr, 1, v)`: the raw store, then the notifications (R46). -/
def memWrite (a v : Word) (s : State) : Except Fault State :=
  notifyAll .set a v (s.setMem (s.mem.write a v))

/-- `NextWord()`: the word at PC, PC advanced by one modulo 65536 (R103). -/
def nextWord (s : State) : Except Fault (Word × State) := do
  let r ← memRead s.pc s
  .ok (r.1, r.2.setPc (r.2.pc + 1))

/-- `NextWord()` so many times, the first word first. -/
def nextWords : Nat → State → Except Fault (List Word × State)
  | 0, s => .ok ([], s)
  | n + 1, s => do
    let r ← nextWord s
    let rs ← nextWords n r.2
    .ok (r.1 :: rs.1, rs.2)

/-- `Push(v)`: SP down by one, then the write (R122). -/
def push (v : Word) (s : State) : Except Fault State := memWrite (s.sp - 1) v (s.setSp (s.sp - 1))

/-- `Pop()`: the read, then SP up by one (R123). -/
def pop (s : State) : Except Fault (Word × State) := do
  let r ← memRead s.sp s
  .ok (r.1, r.2.setSp (r.2.sp + 1))

/-! ### Interrupt delivery, entry and return -/

/-- `Enter(msg)` (R240): queueing on, PC and then A pushed, PC at IA, the message in A. -/
def enterInterrupt (msg : Word) (s : State) : Except Fault State := do
  let s ← push s.pc (s.setIaq true)
  let s ← push s.x.A s
  .ok ((s.setPc s.ia).setReg .A msg)

/-- `DeliverInterrupt()` (R238): with queueing off, the oldest message leaves the queue; the handler is entered
unless IA is 0, when the message is dropped (R241). Called in normal-fetch state only (R102). -/
def deliverInterrupt (s : State) : Except Fault State :=
  match s.iaq, s.irqq with
  | false, msg :: rest =>
    let s := s.setIrqq rest
    if s.ia = 0 then .ok s else enterInterrupt msg s
  | _, _ => .ok s

/-- The return from a handler (R208, R243): queueing off, A and then PC popped. -/
def returnFromInterrupt (s : State) : Except Fault State := do
  let ra ← pop (s.setIaq false)
  let rp ← pop (ra.2.setReg .A ra.1)
  .ok (rp.2.setPc rp.1)

/-! ### HWI -/

/-- The dispatch to device `k` (R218): the device answers from its state, the register file and memory; its new
register file and raw writes take effect, then its interrupt requests. A device without the capability does
nothing. -/
def dispatchDevice (k : Nat) (d : Device) (s : State) : Except Fault State :=
  match d.interrupt with
  | none => .ok s
  | some h =>
    let r := h.answer Config.interrupt (s.devState k, s.regFile, s.mem)
    irqAll r.irqs (((s.setDev k r.dev).setRegFile r.regs).setMem (s.mem.writeAll r.writes))

/-! ### Outcomes -/

/-- The outcome of an instruction's effect. -/
def finish : Except Fault State → Host.Outcome State Fault Refusal
  | .ok s => .next s
  | .error f => .fault f

end Machine

end Sys2Proof
end

