-- ==== Sys2Proof/Machine/Operands.lean ====
section
/-! DEFINITION. The addressing resolver and the reading and writing of locations (R106 to R121, R124, R131). -/

namespace Sys2Proof.Machine

/-- `Resolve(c, pos)` (R107 to R119), the operand's extra word having been read. The address is fixed here, from
the registers and SP as they are now (R131); only code 0x18 changes state, and only SP. All address arithmetic
is modulo 65536 (R42). -/
def resolve (pos : Pos) (o : Operand) (s : State) : Loc × State :=
  match o with
  | .reg r => (.reg r, s)
  | .ind r => (.mem (s.x.get r), s)
  | .indNext r n => (.mem (n + s.x.get r), s)
  | .stack =>
    match pos with
    | .asA => (.mem s.sp, s.setSp (s.sp + 1))
    | .asB => (.mem (s.sp - 1), s.setSp (s.sp - 1))
  | .peek => (.mem s.sp, s)
  | .pick n => (.mem (s.sp + n), s)
  | .sp => (.sp, s)
  | .pc => (.pc, s)
  | .ex => (.ex, s)
  | .abs n => (.mem n, s)
  | .next n => (.lit n, s)
  | .inline v => (.lit v, s)

/-- The content of a location, with no memory transaction. -/
def peekLoc (l : Loc) (s : State) : Word :=
  match l with
  | .reg r => s.x.get r
  | .sp => s.sp
  | .pc => s.pc
  | .ex => s.ex
  | .mem a => s.mem.read a
  | .lit v => v

/-- The content of a location replaced, with no memory transaction; a literal's is not (R121). -/
def pokeLoc (l : Loc) (v : Word) (s : State) : State :=
  match l with
  | .reg r => s.setReg r v
  | .sp => s.setSp v
  | .pc => s.setPc v
  | .ex => s.setEx v
  | .mem a => s.setMem (s.mem.write a v)
  | .lit _ => s

/-- `ReadLoc(l)` (R120): only a memory location makes a transaction. -/
def readLoc (l : Loc) (s : State) : Except Fault (Word × State) :=
  match l with
  | .mem a => memRead a s
  | l => .ok (peekLoc l s, s)

/-- `WriteLoc(l, v)` (R121): a memory location makes a transaction; a literal discards the write. -/
def writeLoc (l : Loc) (v : Word) (s : State) : Except Fault State :=
  match l with
  | .mem a => memWrite a v s
  | l => .ok (pokeLoc l v s)

/-- The two locations of a basic-form instruction and the state resolution leaves. -/
structure Located where
  la : Loc
  lb : Loc
  st : State
  deriving DecidableEq, Repr

/-- Both operands resolved, a first (R106). -/
def locate (b a : Operand) (s : State) : Located :=
  let ra := resolve .asA a s
  let rb := resolve .asB b ra.2
  ⟨ra.1, rb.1, rb.2⟩

/-- What a basic-form instruction's own rule receives: `la`, `lb`, `va`, `vb` and the state (R125). -/
structure Basic where
  la : Loc
  lb : Loc
  va : Word
  vb : Word
  st : State
  deriving DecidableEq, Repr

/-- Both operands resolved, then both values read, a first (R106, R124). -/
def operands (b a : Operand) (s : State) : Except Fault Basic :=
  let l := locate b a s
  do
    let ra ← readLoc l.la l.st
    let rb ← readLoc l.lb ra.2
    .ok ⟨l.la, l.lb, ra.1, rb.1, rb.2⟩

/-- What a special-form instruction's own rule receives: `la`, `va` and the state. -/
structure Single where
  la : Loc
  va : Word
  st : State
  deriving DecidableEq, Repr

/-- The one operand resolved, as an a operand, and its value read (R200). -/
def operand (a : Operand) (s : State) : Except Fault Single :=
  let r := resolve .asA a s
  do
    let ra ← readLoc r.1 r.2
    .ok ⟨r.1, ra.1, ra.2⟩

end Sys2Proof.Machine
end

