-- ==== Sys2Proof/Machine/Alu.lean ====
section
/-! DEFINITION. The 19 basic ALU instructions (spec/41_basic_alu.md). -/

namespace Sys2Proof.Machine

/-- What an ALU instruction's function takes: va, vb, the old EX; and gives: the result and the new EX. -/
abbrev AluFn := Word → Word → Word → Word × Word

/-- The common rule R140: operands located and read; the function; the result to b's location; then EX, so that a
result written to EX is lost (R165). -/
def aluEffect (f : AluFn) (b a : Operand) (s : State) : Except Fault State := do
  let o ← operands b a s
  let r := f o.va o.vb o.st.ex
  let t ← writeLoc o.lb r.1 o.st
  .ok (t.setEx r.2)

/-- Both index registers moved by `d`: STI adds 1 and STD subtracts 1, after everything else (R158, R159). -/
def stepIndexes (d : Word) (s : State) : State :=
  (s.setReg .I (s.x.I + d)).setReg .J (s.x.J + d)

/-- SET b, a (R141). -/
def execSet (b a : Operand) (s : State) : Host.Outcome State Fault Refusal := finish (aluEffect fSet b a s)

/-- ADD b, a (R142). -/
def execAdd (b a : Operand) (s : State) : Host.Outcome State Fault Refusal := finish (aluEffect fAdd b a s)

/-- SUB b, a (R143). -/
def execSub (b a : Operand) (s : State) : Host.Outcome State Fault Refusal := finish (aluEffect fSub b a s)

/-- MUL b, a (R144). -/
def execMul (b a : Operand) (s : State) : Host.Outcome State Fault Refusal := finish (aluEffect fMul b a s)

/-- MLI b, a (R145). -/
def execMli (b a : Operand) (s : State) : Host.Outcome State Fault Refusal := finish (aluEffect fMli b a s)

/-- DIV b, a (R146). -/
def execDiv (b a : Operand) (s : State) : Host.Outcome State Fault Refusal := finish (aluEffect fDiv b a s)

/-- DVI b, a (R147). -/
def execDvi (b a : Operand) (s : State) : Host.Outcome State Fault Refusal := finish (aluEffect fDvi b a s)

/-- MOD b, a (R148). -/
def execMod (b a : Operand) (s : State) : Host.Outcome State Fault Refusal := finish (aluEffect fMod b a s)

/-- MDI b, a (R149). -/
def execMdi (b a : Operand) (s : State) : Host.Outcome State Fault Refusal := finish (aluEffect fMdi b a s)

/-- AND b, a (R150). -/
def execAnd (b a : Operand) (s : State) : Host.Outcome State Fault Refusal := finish (aluEffect fAnd b a s)

/-- BOR b, a (R151). -/
def execBor (b a : Operand) (s : State) : Host.Outcome State Fault Refusal := finish (aluEffect fBor b a s)

/-- XOR b, a (R152). -/
def execXor (b a : Operand) (s : State) : Host.Outcome State Fault Refusal := finish (aluEffect fXor b a s)

/-- SHR b, a (R153). -/
def execShr (b a : Operand) (s : State) : Host.Outcome State Fault Refusal := finish (aluEffect fShr b a s)

/-- ASR b, a (R154). -/
def execAsr (b a : Operand) (s : State) : Host.Outcome State Fault Refusal := finish (aluEffect fAsr b a s)

/-- SHL b, a (R155). -/
def execShl (b a : Operand) (s : State) : Host.Outcome State Fault Refusal := finish (aluEffect fShl b a s)

/-- ADX b, a (R156). -/
def execAdx (b a : Operand) (s : State) : Host.Outcome State Fault Refusal := finish (aluEffect fAdx b a s)

/-- SBX b, a (R157). -/
def execSbx (b a : Operand) (s : State) : Host.Outcome State Fault Refusal := finish (aluEffect fSbx b a s)

/-- STI b, a (R158): set, then I and J up by one. -/
def execSti (b a : Operand) (s : State) : Host.Outcome State Fault Refusal :=
  finish do
    let t ← aluEffect fSet b a s
    .ok (stepIndexes 1 t)

/-- STD b, a (R159): set, then I and J down by one. -/
def execStd (b a : Operand) (s : State) : Host.Outcome State Fault Refusal :=
  finish do
    let t ← aluEffect fSet b a s
    .ok (stepIndexes (-1) t)

end Sys2Proof.Machine
end

