-- ==== Sys2Proof/Machine/Cond.lean ====
section
/-! DEFINITION. The 8 conditional instructions (spec/42_conditional.md). -/

namespace Sys2Proof.Machine

/-- The common rule R180: operands located and read; where the predicate (of va, vb) is false the machine enters
the skip state. Nothing is written, EX included (R191). -/
def condEffect (p : Word → Word → Bool) (b a : Operand) (s : State) : Except Fault State := do
  let o ← operands b a s
  .ok (if p o.va o.vb then o.st else o.st.setSkip true)

/-- IFB b, a (R181). -/
def execIfb (b a : Operand) (s : State) : Host.Outcome State Fault Refusal := finish (condEffect pIfb b a s)

/-- IFC b, a (R182). -/
def execIfc (b a : Operand) (s : State) : Host.Outcome State Fault Refusal := finish (condEffect pIfc b a s)

/-- IFE b, a (R183). -/
def execIfe (b a : Operand) (s : State) : Host.Outcome State Fault Refusal := finish (condEffect pIfe b a s)

/-- IFN b, a (R184). -/
def execIfn (b a : Operand) (s : State) : Host.Outcome State Fault Refusal := finish (condEffect pIfn b a s)

/-- IFG b, a (R185). -/
def execIfg (b a : Operand) (s : State) : Host.Outcome State Fault Refusal := finish (condEffect pIfg b a s)

/-- IFA b, a (R186). -/
def execIfa (b a : Operand) (s : State) : Host.Outcome State Fault Refusal := finish (condEffect pIfa b a s)

/-- IFL b, a (R187). -/
def execIfl (b a : Operand) (s : State) : Host.Outcome State Fault Refusal := finish (condEffect pIfl b a s)

/-- IFU b, a (R188). -/
def execIfu (b a : Operand) (s : State) : Host.Outcome State Fault Refusal := finish (condEffect pIfu b a s)

end Sys2Proof.Machine
end

