-- ==== Sys2Proof/Machine/Special.lean ====
section
/-! DEFINITION. The 10 special instructions (spec/43_special.md). Each resolves its operand as an a operand and
reads it before its own effect (R200); none writes EX but through an operand (D3). -/

namespace Sys2Proof.Machine

/-- JSR a (R201): the address of the next instruction pushed, PC at va. -/
def execJsr (a : Operand) (s : State) : Host.Outcome State Fault Refusal :=
  finish do
    let o ← operand a s
    let t ← push o.st.pc o.st
    .ok (t.setPc o.va)

/-- HCF a (R220): halt; va is read and ignored. -/
def execHcf (a : Operand) (s : State) : Host.Outcome State Fault Refusal :=
  finish do
    let o ← operand a s
    .ok (o.st.setRunning false)

/-- INT a (R202): the message va queued; delivered at the start of a later step. -/
def execInt (a : Operand) (s : State) : Host.Outcome State Fault Refusal :=
  finish do
    let o ← operand a s
    irq o.va o.st

/-- IAG a (R204): IA to a's location. -/
def execIag (a : Operand) (s : State) : Host.Outcome State Fault Refusal :=
  finish do
    let o ← operand a s
    writeLoc o.la o.st.ia o.st

/-- IAS a (R206): IA set to va. -/
def execIas (a : Operand) (s : State) : Host.Outcome State Fault Refusal :=
  finish do
    let o ← operand a s
    .ok (o.st.setIa o.va)

/-- RFI a (R208): return from a handler; va is read and ignored. -/
def execRfi (a : Operand) (s : State) : Host.Outcome State Fault Refusal :=
  finish do
    let o ← operand a s
    returnFromInterrupt o.st

/-- IAQ a (R210): queueing on iff va is non-zero. -/
def execIaq (a : Operand) (s : State) : Host.Outcome State Fault Refusal :=
  finish do
    let o ← operand a s
    .ok (o.st.setIaq (decide (o.va ≠ 0)))

/-- HWN a (R214): the number of attached devices to a's location. -/
def execHwn (a : Operand) (s : State) : Host.Outcome State Fault Refusal :=
  finish do
    let o ← operand a s
    writeLoc o.la (BitVec.ofNat 16 o.st.devices.length) o.st

/-- The descriptor of a device in A, B, C, X, Y (R216). -/
def loadDescriptor (d : Descriptor) (s : State) : State :=
  ((((s.setReg .A (d.id.setWidth 16)).setReg .B ((d.id >>> 16).setWidth 16)).setReg .C d.version).setReg .X
    (d.manufacturer.setWidth 16)).setReg .Y ((d.manufacturer >>> 16).setWidth 16)

/-- HWQ a (R216): the descriptor of device va; a number that names no device has no next state (R217). -/
def execHwq (a : Operand) (s : State) : Host.Outcome State Fault Refusal :=
  finish do
    let o ← operand a s
    match o.st.devices[o.va.toNat]? with
    | none => .error (.noSuchDevice o.va)
    | some d => .ok (loadDescriptor d.descriptor o.st)

/-- HWI a (R218): the dispatch to device va; a number that names no device has no next state (R219). -/
def execHwi (a : Operand) (s : State) : Host.Outcome State Fault Refusal :=
  finish do
    let o ← operand a s
    match o.st.devices[o.va.toNat]? with
    | none => .error (.noSuchDevice o.va)
    | some d => dispatchDevice o.va.toNat d o.st

end Sys2Proof.Machine
end

