-- ==== Sys2Proof/Machine/Cycle.lean ====
section
/-! DEFINITION. The parts of one step (R100): delivery, fetch, skip, reserved encodings, the cycle count; and
placing an instruction where the next step fetches. -/

namespace Sys2Proof.Machine

/-- A reserved basic-form encoding (R126): operands resolved and both values read, the diagnostic, nothing else. -/
def execReservedBasic (p w : Word) (b a : Operand) (s : State) : Host.Outcome State Fault Refusal :=
  finish do
    let o ← operands b a s
    .ok (o.st.addDiag ⟨p, w⟩)

/-- A reserved special-form encoding (R126). -/
def execReservedSpecial (p w : Word) (a : Operand) (s : State) : Host.Outcome State Fault Refusal :=
  finish do
    let o ← operand a s
    .ok (o.st.addDiag ⟨p, w⟩)

/-- Dispatch (R125): the instruction's meaning, or R126 for the word `w` at address `p`. -/
def runDecoded (p w : Word) (d : Decoded) (s : State) : Host.Outcome State Fault Refusal :=
  match d with
  | .instr i => exec i s
  | .reservedBasic _ b a => execReservedBasic p w b a s
  | .reservedSpecial _ a => execReservedSpecial p w a s

/-- `SkipOne` (R105): PC over the extra words of `w`, which are counted and not read; skip stays on through a
conditional. -/
def skipOne (w : Word) (s : State) : State :=
  (s.setPc (s.pc + BitVec.ofNat 16 (extraWords w))).setSkip (isConditional w)

/-- A step in skip state: no delivery (R102), one word read, nothing executed (R105). -/
def skipCycle (s : State) : Host.Outcome State Fault Refusal :=
  finish do
    let r ← nextWord s
    .ok (skipOne r.1 r.2)

/-- What the fetch phase leaves: the address and the first word of the instruction, all its words decoded, and the
state with PC past them. -/
structure Fetched where
  p  : Word
  w  : Word
  d  : Decoded
  st : State
  deriving DecidableEq, Repr

/-- The fetch phase: the first word, then operand a's and operand b's extra words, each a `NextWord()` (R103, R129). -/
def fetch (s : State) : Except Fault Fetched := do
  let r ← nextWord s
  let rs ← nextWords (extraWords r.1) r.2
  .ok ⟨s.pc, r.1, decodeWords (r.1 :: rs.1), rs.2⟩

/-- A step in normal-fetch state: delivery, fetch, dispatch (R100). -/
def normalCycle (s : State) : Host.Outcome State Fault Refusal :=
  match (do fetch (← deliverInterrupt s) : Except Fault Fetched) with
  | .ok r => runDecoded r.p r.w r.d r.st
  | .error f => .fault f

/-- A completed step counts one cycle (R127). -/
def countOutcome : Host.Outcome State Fault Refusal → Host.Outcome State Fault Refusal
  | .next s => .next s.countCycle
  | .fault f => .fault f
  | .refused r => .refused r

/-- One step, the source's `cycle()` (R100). With `running` = 0 there is none (R101). -/
def cycle (s : State) : Host.Outcome State Fault Refusal :=
  if s.running then countOutcome (if s.skip then skipCycle s else normalCycle s)
  else .fault .notRunning

/-- The instruction whose bits are `w` (three words, zero above `nbits`) at PC, the machine running, in
normal-fetch state and with no message about to be delivered, so that the next step runs it (log entry 15). -/
def placeInstruction (s : State) (nbits w : Nat) : State :=
  let w := w % 2 ^ nbits
  let m := ((s.mem.write s.pc (BitVec.ofNat 16 w)).write (s.pc + 1) (BitVec.ofNat 16 (w / 2 ^ 16))).write (s.pc + 2)
    (BitVec.ofNat 16 (w / 2 ^ 32))
  { s with mem := m, running := true, skip := false, iaq := s.iaq || !s.irqq.isEmpty }

end Sys2Proof.Machine
end

