-- ==== Sys2Proof/Machine/Env.lean ====
section
/-! DEFINITION. What acts on the machine between its steps: device ticks (R53) and the host's operations
(R260 to R262, R272 to R277, R61). `step` is the core's own transition; a claim about a program that shares memory
with these agents is a claim about every interleaving of `Move`s. -/

namespace Sys2Proof.Machine

/-- The image at address 0 upward (R262): raw, no notification. -/
def loadImage (image : List Word) (m : Memory) : Memory :=
  m.writeAll ((List.range image.length).zip image |>.map (fun c => (BitVec.ofNat 16 c.1, c.2)))

/-- A claimed range is a closed interval with `lo ≤ hi` (R49). -/
def Device.rangeOk (d : Device) : Bool :=
  match d.range with
  | some r => decide (r.1 ≤ r.2)
  | none => true

/-- Construction with IMAGE and DEVICES, each device with its initial state (R25, R260 to R262). What is no legal
configuration is refused: an image longer than memory (U10), more devices than a Word counts (R214), a range
with `lo > hi` (R49). -/
def State.construct (image : List Word) (devs : List (Device × DevState)) : Host.Outcome State Fault Refusal :=
  if Config.memWords < image.length then .refused .imageTooLong
  else if Config.maxDevices < devs.length then .refused .tooManyDevices
  else if devs.all (fun d => d.1.rangeOk) then
    .next { State.reset with
      mem := loadImage image []
      dev := devs.map Prod.snd
      devices := devs.map Prod.fst }
  else .refused .illegalRange

/-- `tick()` of device `k`, run by the external scheduler between two steps (R53): its own state, raw memory
writes, interrupt requests. A device without the capability has no such move (log entry 19). A device may tick a stopped
machine too: the tick does not look at `running` (DESIGN CHOICE, log entry 21). -/
def tick (k : Nat) (s : State) : Host.Outcome State Fault Refusal :=
  match s.devices[k]? with
  | none => .refused .noTick
  | some d =>
    match d.tick with
    | none => .refused .noTick
    | some h => finish (react k (h.answer Config.tick (s.devState k, s.mem)) s)

/-- The host's stop request: `running <- 0` (R272). -/
def hostStop (s : State) : State := s.setRunning false

/-- The host's start: `running <- 1`, the first half of run-to-halt (R276). It leaves the queue as it is, so messages left
when the machine halted are pending again, and the steps after it deliver them as R238 says, though R234 calls them
"never delivered" (DESIGN CHOICE, log entry 22). -/
def hostStart (s : State) : State := s.setRunning true

/-- The host's load or replacement of memory cells: raw (R61, R277). -/
def hostLoad (cells : List (Word × Word)) (s : State) : State := s.setMem (s.mem.writeAll cells)

/-- Single-step: one step when `running` = 1, nothing when it is 0 (R276). -/
def singleStep (s : State) : Host.Outcome State Fault Refusal := if s.running then step s else .next s

/-- So many steps, each from a running machine. -/
def steps : Nat → State → Host.Outcome State Fault Refusal
  | 0, s => .next s
  | n + 1, s =>
    match step s with
    | .next t => steps n t
    | .fault f => .fault f
    | .refused r => .refused r

/-- Steps until `running` = 0, at most so many; none where the bound is reached first. -/
def stepsToHalt : Nat → State → Option (Host.Outcome State Fault Refusal)
  | 0, s => if s.running then none else some (.next s)
  | n + 1, s =>
    if s.running then
      match step s with
      | .next t => stepsToHalt n t
      | .fault f => some (.fault f)
      | .refused r => some (.refused r)
    else some (.next s)

/-- Run-to-halt (R276), observed for at most `n` steps. -/
def runToHalt (n : Nat) (s : State) : Option (Host.Outcome State Fault Refusal) := stepsToHalt n (hostStart s)

/-- What the host reads between steps (R273). -/
structure Snapshot where
  regs    : RegFile
  ia      : Word
  irqq    : List Word
  iaq     : Bool
  skip    : Bool
  running : Bool
  cycles  : Nat
  mem     : Memory
  deriving DecidableEq, Repr

/-- The snapshot: no side effect, and memory raw, firing no `onGet` (R273). -/
def State.snapshot (s : State) : Snapshot :=
  ⟨s.regFile, s.ia, s.irqq, s.iaq, s.skip, s.running, s.cycles, s.mem⟩

/-- The moves of the core and its environment (R8, R275). -/
inductive Move where
  | step
  | tick (k : Nat)
  | stop
  | start
  | load (cells : List (Word × Word))
  | reset (image : List Word) (devs : List (Device × DevState))
  deriving DecidableEq, Repr

/-- One move, from between two steps. A reset discards all previous state (R260). -/
def move (m : Move) (s : State) : Host.Outcome State Fault Refusal :=
  match m with
  | .step => step s
  | .tick k => tick k s
  | .stop => .next (hostStop s)
  | .start => .next (hostStart s)
  | .load cells => .next (hostLoad cells s)
  | .reset image devs => State.construct image devs

end Sys2Proof.Machine
end

