-- ==== Sys2Proof/Safety.lean ====
section
/-! DEFINITION. The terms claims use: the invariant, accesses no device watches, reachable states, safe runs. -/

namespace Sys2Proof.Machine

/-- What every state between steps satisfies: memory in canonical form, at most 256 messages waiting (R18), a
legal registry (R49, R214), one state for each device (R24). -/
def State.inv (s : State) : Bool :=
  s.mem.wf && decide (s.irqq.length ≤ Config.irqQueueMax) && decide (s.devices.length ≤ Config.maxDevices) &&
    s.devices.all Device.rangeOk && decide (s.dev.length = s.devices.length)

/-- No device claims this address: an access of it notifies no one (R48). -/
def State.quiet (s : State) (a : Word) : Bool := s.devices.all (fun d => !d.claims a)

/-- The devices an access of an address notifies, in registry order: the numbers of those whose closed range holds the
address and that have the reaction function, with that function (R45, R46, R49, R51). -/
def State.listeners (s : State) (acc : Access) (a : Word) : List (Nat × Handler (DevState × Word × Word) Reaction) :=
  s.devices.zipIdx.filterMap fun c =>
    match c.1.range with
    | none => none
    | some r =>
      if r.1 ≤ a ∧ a ≤ r.2 then
        match acc with
        | .get => c.1.onGet.map (fun h => (c.2, h))
        | .set => c.1.onSet.map (fun h => (c.2, h))
      else none

/-- Reading or writing this location notifies no one. -/
def State.quietLoc (s : State) (l : Loc) : Bool :=
  match l with
  | .mem a => s.quiet a
  | _ => true

/-- How far resolving an operand moves SP: POP up by one, PUSH down by one, every other operand not at all
(R106, R110, R111). -/
def spMove (pos : Pos) (o : Operand) : Word :=
  match o, pos with
  | .stack, .asA => 1
  | .stack, .asB => -1
  | _, _ => 0

/-- The value of operand a of a basic-form instruction, where no device watches. -/
def valA (b a : Operand) (s : State) : Word := peekLoc (locate b a s).la (locate b a s).st

/-- The value of operand b of a basic-form instruction, where no device watches. -/
def valB (b a : Operand) (s : State) : Word := peekLoc (locate b a s).lb (locate b a s).st

/-- The value of the operand of a special-form instruction, where no device watches. -/
def val (a : Operand) (s : State) : Word := peekLoc (resolve .asA a s).1 (resolve .asA a s).2

/-- No device watches either operand. -/
def quietPair (b a : Operand) (s : State) : Bool := s.quietLoc (locate b a s).la && s.quietLoc (locate b a s).lb

/-- No device watches the operand. -/
def quietOne (a : Operand) (s : State) : Bool := s.quietLoc (resolve .asA a s).1

/-- Both operands resolved, `res` in b's location, then `x` in EX (R140). -/
def aluState (b a : Operand) (s : State) (res x : Word) : State :=
  (pokeLoc (locate b a s).lb res (locate b a s).st).setEx x

/-- The address of the word `n` instructions on from `addr`, each stepped over by its length (R81, R105). -/
def afterInstrs (m : Memory) : Nat → Word → Word
  | 0, addr => addr
  | n + 1, addr => afterInstrs m n (addr + BitVec.ofNat 16 (wordLength (m.read addr)))

/-- The reserved encodings, by the fields of the first word (R80). -/
def reservedWord (w : Word) : Bool :=
  if fieldO w = 0 then !([0x01, 0x07, 0x08, 0x09, 0x0a, 0x0b, 0x0c, 0x10, 0x11, 0x12].contains (fieldB w))
  else [0x18, 0x19, 0x1c, 0x1d].contains (fieldO w)

/-- The control state no instruction reaches but those named for it (R222). -/
structure State.SameControl (s t : State) : Prop where
  ia      : t.ia = s.ia
  iaq     : t.iaq = s.iaq
  skip    : t.skip = s.skip
  running : t.running = s.running

/-- What no instruction but INT, and no device but by its requests, changes (R22, R24, R230, R236). -/
structure State.SameEngine (s t : State) : Prop where
  cycles  : t.cycles = s.cycles
  devices : t.devices = s.devices
  diags   : t.diags = s.diags
  irqq    : s.irqq <+: t.irqq

/-- What the devices can do to the machine while they react to notifications: change memory and their own states
and append to the interrupt queue, and nothing else. No register is theirs to write (R52, U9). -/
structure State.EnvStep (s t : State) : Prop where
  x       : t.x = s.x
  sp      : t.sp = s.sp
  pc      : t.pc = s.pc
  ex      : t.ex = s.ex
  ia      : t.ia = s.ia
  irqq    : s.irqq <+: t.irqq
  iaq     : t.iaq = s.iaq
  skip    : t.skip = s.skip
  running : t.running = s.running
  cycles  : t.cycles = s.cycles
  devices : t.devices = s.devices
  diags   : t.diags = s.diags

/-- The states the machine can come to: construction, then any moves of the core, the devices and the host. -/
inductive Reachable : State → Prop where
  | construct {image : List Word} {devs : List (Device × DevState)} {s : State} :
      State.construct image devs = .next s → Reachable s
  | move {m : Move} {s t : State} : Reachable s → Machine.move m s = .next t → Reachable t

/-- A safe run of `n` moves: none of them meets a point without a next state, but for a step asked of a machine
that is not running, which is no error (U18). -/
def SafeRun : List Move → State → Prop
  | [], _ => True
  | m :: ms, s =>
    match Machine.move m s with
    | .next t => SafeRun ms t
    | .fault f => f = .notRunning
    | .refused _ => True

end Sys2Proof.Machine
end

