-- ==== Sys2Proof/Certificates/Slice0/Obligations.lean ====
section
/-! DEFINITION. The statements for the provers, each from the rules of spec/. "Quiet" hypotheses say that no
attached device claims an address the instruction reads or writes as an operand or on the stack; they hold of
every state of a machine without memory-mapped devices. What the machine does where a device is notified is stated
in general by AluCommonRule, ConditionalCommonRule, SpecialCommonRule, JsrPushesAndJumps, HcfHalts and the frames, which assume
nothing of the devices. -/

open Sys2Proof Sys2Proof.Machine

/-! ### Encoding -/

/-- R71 to R79: encoding an instruction and decoding its words, whatever stands after them, gives it back. -/
def Obligations.DecodeEncodeRoundTrip : Prop :=
  ∀ (i : Instr) (rest : List Word), i.wf = true → decodeWords (encode i ++ rest) = .instr i

/-- R70 to R81: what decodes to an instruction is that instruction's encoding word for word, its length that of
R81, and the instruction is encodable. -/
def Obligations.EncodeDecodeExact : Prop :=
  ∀ (w x1 x2 : Word) (i : Instr), decode w x1 x2 = .instr i →
    i.wf = true ∧ encode i = [w, x1, x2].take (wordLength w)

/-- R80 (opcode numbers: the spec's decision D1): exactly the reserved words decode to no instruction. -/
def Obligations.ReservedWordsExactly : Prop :=
  ∀ (w x1 x2 : Word), (∃ i, decode w x1 x2 = .instr i) ↔ reservedWord w = false

/-- Words of 30_encoding.md section 5 and of 95_test_vectors.md (E8, E16, E33, E47, F3, F5), one of each family and of
each reserved form, decode to what they stand for. -/
def Obligations.WrittenWordsDecode : Prop :=
  decode 0x9801 0 0 = .instr (.set (.reg .A) (.inline 5)) ∧
  decode 0x7fc1 0x0020 0x1000 = .instr (.set (.abs 0x1000) (.next 0x0020)) ∧
  decode 0x0741 0xffff 0 = .instr (.set (.pick 0xffff) (.reg .B)) ∧
  decode 0x1064 0 0 = .instr (.mul (.reg .X) (.reg .Y)) ∧
  decode 0x1072 0 0 = .instr (.ife (.reg .X) (.reg .Y)) ∧
  decode 0x39fe 0 0 = .instr (.sti (.ind .J) (.ind .I)) ∧
  decode 0x7c20 0x0100 0 = .instr (.jsr (.next 0x0100)) ∧
  decode 0x00e0 0 0 = .instr (.hcf (.reg .A)) ∧
  decode 0x7c00 0x0005 0 = .reservedSpecial 0 (.next 0x0005) ∧
  decode 0x6318 0 0 = .reservedBasic 0x18 .stack .stack

/-- R76: the inline literal of code c is (c - 0x21) mod 65536, read-only, and the literal n, -1 to 30, is the code
n + 0x21. -/
def Obligations.InlineLiteralIsCodeMinus33 : Prop :=
  (∀ (c : Nat) (x : Word), 0x20 ≤ c → c ≤ 0x3f → decodeOperand c x = .inline (w16 ((c : Int) - 0x21)) ∧
    ∀ (v : Word) (s : State), writeLoc (resolve .asA (decodeOperand c x) s).1 v s = .ok s) ∧
  (∀ n : Int, -1 ≤ n → n ≤ 30 →
    (Operand.inline (w16 n)).wfA = true ∧ ((Operand.inline (w16 n)).code : Int) = n + 0x21)

/-! ### Reset -/

/-- R25, R261: the reset state. Memory is the source's; the register values, `running` = 1 and the empty registry are
the spec's decisions D20, D21, D27 (log entry 11), the empty list of diagnostics the model's choice (log entry 6). -/
def Obligations.ResetStateValues : Prop :=
  (∀ r, State.reset.x.get r = 0) ∧ State.reset.sp = 0 ∧ State.reset.pc = 0 ∧ State.reset.ex = 0 ∧
  State.reset.ia = 0 ∧ State.reset.irqq = [] ∧ State.reset.iaq = false ∧ State.reset.skip = false ∧
  State.reset.running = true ∧ State.reset.cycles = 0 ∧ (∀ a, State.reset.mem.read a = 0) ∧
  State.reset.dev = [] ∧ State.reset.devices = [] ∧ State.reset.diags = [] ∧
  State.construct [] [] = .next State.reset

/-- R262 (the refusal of a longer image is the spec's decision D28): the image stands at address 0 upward, the rest
of memory is 0, loading changes nothing else, and an image longer than memory is refused. -/
def Obligations.ConstructLoadsImage : Prop :=
  (∀ image devs s, State.construct image devs = .next s →
    (∀ i (h : i < image.length), s.mem.read (BitVec.ofNat 16 i) = image[i]) ∧
    (∀ i, image.length ≤ i → i < 65536 → s.mem.read (BitVec.ofNat 16 i) = 0) ∧
    s = { State.reset with mem := s.mem, dev := devs.map Prod.snd, devices := devs.map Prod.fst }) ∧
  (∀ image devs, 65536 < image.length → State.construct image devs = .refused .imageTooLong)

/-! ### Memory and devices -/

/-- A read after a write: the word written at its address, what was there before at every other (R48). -/
def Obligations.MemoryReadAfterWrite : Prop :=
  ∀ (m : Memory) (a b v : Word), m.wf = true → (m.write a v).read b = if b = a then v else m.read b

/-- The canonical form is one (the model's own convention, log entry 1): memories that read alike are equal. -/
def Obligations.CanonicalMemoriesAreEqual : Prop :=
  ∀ m n : Memory, m.wf = true → n.wf = true → (∀ a : Word, m.read a = n.read a) → m = n

/-- R48: an access of an address no device claims has no side effect, a read gives what is there, and a read after
a write what was written. -/
def Obligations.UnclaimedAccessHasNoSideEffect : Prop :=
  ∀ (a v : Word) (s : State), s.quiet a = true →
    memRead a s = .ok (s.mem.read a, s) ∧
    memWrite a v s = .ok (s.setMem (s.mem.write a v)) ∧
    (s.mem.wf = true → memRead a (s.setMem (s.mem.write a v)) = .ok (v, s.setMem (s.mem.write a v)))

/-- R45, R46, R52 (D24, D25), whatever the devices answer: a read returns the raw content, and neither transaction
changes a register, a control bit, the counter or the registry; the queue can only grow. -/
def Obligations.NotificationsLeaveRegisters : Prop :=
  (∀ (a : Word) (s : State) (r : Word × State), memRead a s = .ok r → r.1 = s.mem.read a ∧ s.EnvStep r.2) ∧
  (∀ (a v : Word) (s t : State), memWrite a v s = .ok t → s.EnvStep t)

/-- R45, R46, R49, R51 (order and time: D23, D24; fetches and stack accesses too: D34), for any registry: a read gives the raw
content and then notifies, with it, every device that claims the address and listens; a write stores and then
notifies them; device 0 first, each from the state it is in when its turn comes. A fetched word and a pop are reads,
a push is a write. Two devices whose ranges both hold the address are both notified, device 0 first. -/
def Obligations.OverlappingClaimsInRegistryOrder : Prop :=
  ∀ (a v : Word) (s : State),
    memRead a s = (do
      let t ← (s.listeners .get a).foldlM
        (fun u c => react c.1 (c.2.answer Config.onGet (u.devState c.1, a, s.mem.read a)) u) s
      .ok (s.mem.read a, t)) ∧
    memWrite a v s = (s.listeners .set a).foldlM
      (fun u c => react c.1 (c.2.answer Config.onSet (u.devState c.1, a, v)) u) (s.setMem (s.mem.write a v)) ∧
    nextWord s = (do
      let r ← memRead s.pc s
      .ok (r.1, { r.2 with pc := r.2.pc + 1 })) ∧
    pop s = (do
      let r ← memRead s.sp s
      .ok (r.1, { r.2 with sp := r.2.sp + 1 })) ∧
    push v s = memWrite (s.sp - 1) v { s with sp := s.sp - 1 } ∧
    (∀ (d e : Device) (h k : Handler (DevState × Word × Word) Reaction) (p q : DevState),
      s.devices = [d, e] → s.dev = [p, q] → d.claims a = true → e.claims a = true →
      (d.onSet = some h → e.onSet = some k →
        memWrite a v s =
          (do react 1 (k.answer Config.onSet (q, a, v))
                (← react 0 (h.answer Config.onSet (p, a, v)) (s.setMem (s.mem.write a v))))) ∧
      (d.onGet = some h → e.onGet = some k →
        memRead a s =
          (do
            let t ← react 1 (k.answer Config.onGet (q, a, s.mem.read a))
              (← react 0 (h.answer Config.onGet (p, a, s.mem.read a)) s)
            .ok (s.mem.read a, t))))

/-- R59, R267: a store to the address of the next instruction is what the next fetch reads. -/
def Obligations.StoreSeenByNextFetch : Prop :=
  ∀ (v : Word) (s t : State), s.mem.wf = true → s.quiet s.pc = true → memWrite s.pc v s = .ok t →
    nextWord t = .ok (v, t.setPc (s.pc + 1))

/-! ### Operands and the stack -/

/-- R107, R114, R118, R119, and PC and EX (R115, R116): operand codes that name a register or a literal. They take no
side effect at resolution, and only code 0x1f an extra word. Then R120, the reading of every location, and the writing
of these. The model's choice or the spec's own decision: codes 0x20 to 0x3f at position b, where R119 says operand a
only (log entry 14: a literal there too; no word encodes it), and that the write to a literal makes no transaction
(D35). -/
def Obligations.RegisterAndLiteralOperands : Prop :=
  ∀ (pos : Pos) (x : Word) (s : State),
    (∀ c, c < 0x08 → resolve pos (decodeOperand c x) s = (.reg (Reg.ofCode c), s) ∧ xw c = 0) ∧
    (resolve pos (decodeOperand 0x1b x) s = (.sp, s) ∧ xw 0x1b = 0) ∧
    (resolve pos (decodeOperand 0x1c x) s = (.pc, s) ∧ xw 0x1c = 0) ∧
    (resolve pos (decodeOperand 0x1d x) s = (.ex, s) ∧ xw 0x1d = 0) ∧
    (resolve pos (decodeOperand 0x1f x) s = (.lit x, s) ∧ xw 0x1f = 1) ∧
    (∀ c, 0x20 ≤ c → c ≤ 0x3f → resolve pos (decodeOperand c x) s = (.lit (w16 ((c : Int) - 0x21)), s) ∧ xw c = 0) ∧
    ((∀ r, readLoc (.reg r) s = .ok (s.x.get r, s)) ∧ readLoc .sp s = .ok (s.sp, s) ∧ readLoc .pc s = .ok (s.pc, s) ∧
      readLoc .ex s = .ok (s.ex, s) ∧ (∀ a, readLoc (.mem a) s = memRead a s) ∧ readLoc (.lit x) s = .ok (x, s)) ∧
    (∀ v, (∀ r, writeLoc (.reg r) v s = .ok { s with x := s.x.set r v }) ∧ writeLoc .sp v s = .ok { s with sp := v } ∧
      writeLoc .pc v s = .ok { s with pc := v } ∧ writeLoc .ex v s = .ok { s with ex := v } ∧
      writeLoc (.lit x) v s = .ok s)

/-- R108, R109, R112, R113, R117, and POP and PUSH (R110, R111): operand codes that name a memory cell, with their
addresses, extra words and what they do to SP. -/
def Obligations.MemoryOperands : Prop :=
  ∀ (pos : Pos) (x : Word) (s : State),
    (∀ c, 0x08 ≤ c → c ≤ 0x0f →
      resolve pos (decodeOperand c x) s = (.mem (s.x.get (Reg.ofCode (c - 0x08))), s) ∧ xw c = 0) ∧
    (∀ c, 0x10 ≤ c → c ≤ 0x17 →
      resolve pos (decodeOperand c x) s =
        (.mem (w16 ((x.toNat : Int) + (s.x.get (Reg.ofCode (c - 0x10))).toNat)), s) ∧ xw c = 1) ∧
    (resolve .asA (decodeOperand 0x18 x) s = (.mem s.sp, { s with sp := w16 ((s.sp.toNat : Int) + 1) }) ∧
      resolve .asB (decodeOperand 0x18 x) s =
        (.mem (w16 ((s.sp.toNat : Int) - 1)), { s with sp := w16 ((s.sp.toNat : Int) - 1) }) ∧ xw 0x18 = 0) ∧
    (resolve pos (decodeOperand 0x19 x) s = (.mem s.sp, s) ∧ xw 0x19 = 0) ∧
    (resolve pos (decodeOperand 0x1a x) s = (.mem (w16 ((s.sp.toNat : Int) + x.toNat)), s) ∧ xw 0x1a = 1) ∧
    (resolve pos (decodeOperand 0x1e x) s = (.mem x, s) ∧ xw 0x1e = 1)

/-- R106, R124, R131 (D8): a is resolved before b, and both before either value is read. SP read as a value is SP after both
resolutions; a's address is formed before b's PUSH moves SP, b's after a's POP has, so that POP to PUSH names one cell;
no address depends on memory, and resolution changes nothing but SP. What an instruction receives is read from those
locations after that, a's value first; where no device watches, the values are valA and valB. -/
def Obligations.OperandsResolvedBeforeRead : Prop :=
  ∀ (a b : Operand) (n : Word) (s : State),
    valA b .sp s = s.sp + spMove .asB b ∧
    valB .sp a s = s.sp + spMove .asA a ∧
    (locate b (.pick n) s).la = .mem (s.sp + n) ∧
    (locate (.pick n) a s).lb = .mem (s.sp + spMove .asA a + n) ∧
    (locate .peek a s).lb = .mem (s.sp + spMove .asA a) ∧
    (locate .stack .stack s).la = (locate .stack .stack s).lb ∧
    (∀ m : Memory, (locate b a (s.setMem m)).la = (locate b a s).la ∧ (locate b a (s.setMem m)).lb = (locate b a s).lb) ∧
    (locate b a s).st = { s with sp := s.sp + spMove .asA a + spMove .asB b } ∧
    operands b a s = (do
      let ra ← readLoc (locate b a s).la (locate b a s).st
      let rb ← readLoc (locate b a s).lb ra.2
      .ok ⟨(locate b a s).la, (locate b a s).lb, ra.1, rb.1, rb.2⟩) ∧
    (∀ o, operands b a s = .ok o → o.va = valA b a s) ∧
    (quietPair b a s = true →
      operands b a s = .ok ⟨(locate b a s).la, (locate b a s).lb, valA b a s, valB b a s, (locate b a s).st⟩)

/-- R122, R123: PUSH decrements SP and then writes, as resolving PUSH and writing to it does; POP reads and then
increments; a PUSH then a POP restores SP and gives the value pushed, and the popped cell keeps its content. -/
def Obligations.StackDiscipline : Prop :=
  ∀ (v : Word) (s : State),
    push v s = writeLoc (resolve .asB .stack s).1 v (resolve .asB .stack s).2 ∧
    (s.quiet (s.sp - 1) = true →
      push v s = .ok ((s.setSp (s.sp - 1)).setMem (s.mem.write (s.sp - 1) v))) ∧
    (s.quiet s.sp = true → pop s = .ok (s.mem.read s.sp, s.setSp (s.sp + 1))) ∧
    (s.quiet (s.sp - 1) = true → s.mem.wf = true →
      (do pop (← push v s)) = .ok (v, s.setMem (s.mem.write (s.sp - 1) v)))

/-! ### The step -/

/-- R100, R125: a running machine in normal-fetch state, after delivery, executes the instruction that stands at PC,
with PC past its words, and counts one cycle. First where no device watches the instruction's words, from memory;
then in general, from what the fetch leaves. -/
def Obligations.StepRunsDecodedInstruction : Prop :=
  ∀ (s s1 : State) (i : Instr), s.running = true → s.skip = false → deliverInterrupt s = .ok s1 →
    (decodeWords [s1.mem.read s1.pc, s1.mem.read (s1.pc + 1), s1.mem.read (s1.pc + 2)] = .instr i →
      (∀ k, k < (encode i).length → s1.quiet (s1.pc + BitVec.ofNat 16 k) = true) →
      step s = countOutcome (exec i (s1.setPc (s1.pc + BitVec.ofNat 16 (encode i).length)))) ∧
    (∀ r, fetch s1 = .ok r → r.d = .instr i → step s = countOutcome (exec i r.st))

/-- R126 (D10): a step at a reserved word, after delivery, reports it, moves PC by its length and SP as its operands
do, and changes nothing else, though the devices may as they are notified; it completes where no device watches. -/
def Obligations.ReservedWordIsReportedNoOp : Prop :=
  ∀ (s s1 : State) (w sp : Word), s.running = true → s.skip = false → deliverInterrupt s = .ok s1 →
    w = s1.mem.read s1.pc → reservedWord w = true →
    sp = s1.sp + (if fieldA w = 0x18 then 1 else 0) - (if fieldO w ≠ 0 ∧ fieldB w = 0x18 then 1 else 0) →
    ((∀ a, s1.quiet a = true) →
      step s = .next { s1 with
        pc := s1.pc + BitVec.ofNat 16 (wordLength w), sp := sp, cycles := s1.cycles + 1,
        diags := s1.diags ++ [⟨s1.pc, w⟩] }) ∧
    (∀ t, step s = .next t →
      State.EnvStep { s1 with
        pc := s1.pc + BitVec.ofNat 16 (wordLength w), sp := sp, cycles := s1.cycles + 1,
        diags := s1.diags ++ [⟨s1.pc, w⟩] } t)

/-- R101: with `running` = 0 the core has no step, and single-stepping does nothing (R276). The fault `notRunning` is the
model's choice (log entry 5): it stands for R101's "no step", the terminal state of U18, and is no fault of the spec. -/
def Obligations.StoppedMachineHasNoStep : Prop :=
  ∀ s : State, (s.running = false → step s = .fault .notRunning ∧ singleStep s = .next s) ∧
    (∀ t, step s = .next t → s.running = true)

/-- R127, R247 (D12): every completed step counts exactly one cycle, whatever it does. -/
def Obligations.EveryStepCountsOneCycle : Prop :=
  ∀ s t : State, step s = .next t → t.cycles = s.cycles + 1

/-- R105 (D11, D38): a step in skip state moves PC by the length of the instruction, keeps the skip state on exactly
through a conditional, and changes nothing else, though a device may as it is notified of the fetch; no interrupt is
delivered. It completes where no device watches the word at PC. -/
def Obligations.SkipStepMeasuresOnly : Prop :=
  ∀ (s : State) (w : Word), s.running = true → s.skip = true → w = s.mem.read s.pc →
    (s.quiet s.pc = true →
      step s = .next { s with
        pc := s.pc + BitVec.ofNat 16 (wordLength w)
        skip := decide (0x10 ≤ w.toNat % 32 ∧ w.toNat % 32 ≤ 0x17)
        cycles := s.cycles + 1 }) ∧
    (∀ t, step s = .next t →
      State.EnvStep { s with
        pc := s.pc + BitVec.ofNat 16 (wordLength w)
        skip := decide (0x10 ≤ w.toNat % 32 ∧ w.toNat % 32 ≤ 0x17)
        cycles := s.cycles + 1 } t)

/-- R105, R189 (D38; one cycle for each of them: D12): in skip state a run of k conditionals is skipped whole, with the first non-conditional
instruction after it, in k + 1 steps, and nothing else changes. -/
def Obligations.SkipRunOfConditionals : Prop :=
  ∀ (k : Nat) (s : State), s.running = true → s.skip = true →
    (∀ j, j ≤ k → s.quiet (afterInstrs s.mem j s.pc) = true) →
    (∀ j, j < k → isConditional (s.mem.read (afterInstrs s.mem j s.pc)) = true) →
    isConditional (s.mem.read (afterInstrs s.mem k s.pc)) = false →
    steps (k + 1) s =
      .next { s with pc := afterInstrs s.mem (k + 1) s.pc, skip := false, cycles := s.cycles + (k + 1) }

/-! ### Interrupts (the mechanism is the spec's decision D13 to D16) -/

/-- R238, R240: with queueing off, a message waiting and IA not 0, delivery takes the oldest message, sets queueing, pushes
PC and then A, and enters the handler with the message in A; nothing else changes, where no device watches the two
stack cells. Where one does, it can change memory, its own state and the queue's tail, and nothing else. -/
def Obligations.InterruptEntrySavesPcAndA : Prop :=
  ∀ (s : State) (msg : Word) (rest : List Word), s.iaq = false → s.irqq = msg :: rest → s.ia ≠ 0 →
    (s.quiet (s.sp - 1) = true → s.quiet (s.sp - 2) = true →
      deliverInterrupt s = .ok { s with
        irqq := rest
        iaq := true
        sp := s.sp - 2
        mem := (s.mem.write (s.sp - 1) s.pc).write (s.sp - 2) s.x.A
        pc := s.ia
        x := s.x.set .A msg }) ∧
    (∀ t, deliverInterrupt s = .ok t →
      State.EnvStep { s with irqq := rest, iaq := true, sp := s.sp - 2, pc := s.ia, x := s.x.set .A msg } t)

/-- R233, R238, R241: with queueing on, or no message waiting, delivery does nothing; with IA = 0 the oldest message is
dropped and nothing else changes. -/
def Obligations.InterruptHeldOrDropped : Prop :=
  ∀ s : State, ((s.iaq = true ∨ s.irqq = []) → deliverInterrupt s = .ok s) ∧
    (∀ msg rest, s.iaq = false → s.irqq = msg :: rest → s.ia = 0 → deliverInterrupt s = .ok { s with irqq := rest })

/-- R238, R239, of every step of every machine: messages leave the queue at its head only, at most one a step, and
none while queueing is on or in skip state. -/
def Obligations.QueueIsFirstInFirstOut : Prop :=
  ∀ s t : State, step s = .next t →
    s.irqq <+: t.irqq ∨ (s.iaq = false ∧ s.skip = false ∧ s.irqq.tail <+: t.irqq)

/-- R208, R243: RFI undoes interrupt entry. A message delivered, then RFI with any operand but POP: registers, SP, PC and
queueing are as before the message, EX, IA and the rest of the queue too, and memory but for the two cells pushed. -/
def Obligations.RfiUndoesInterruptEntry : Prop :=
  ∀ (s t : State) (msg : Word) (rest : List Word) (a : Operand), s.mem.wf = true → s.iaq = false →
    s.irqq = msg :: rest → s.ia ≠ 0 → s.quiet (s.sp - 1) = true → s.quiet (s.sp - 2) = true →
    deliverInterrupt s = .ok t → a ≠ .stack → quietOne a t = true →
    exec (.rfi a) t = .next { s with
      irqq := rest
      mem := (s.mem.write (s.sp - 1) s.pc).write (s.sp - 2) s.x.A }

/-! ### Basic ALU instructions: results and EX -/

/-- R140, R158, R159 (order of the writes: D7; STI and STD: D4), with any devices and of all 19: an ALU instruction gives a next
state exactly where both values can be read, a first, and the result written; then EX is written; then STI and STD
move I and J. -/
def Obligations.AluCommonRule : Prop :=
  ∀ (b a : Operand) (s t : State),
    (∀ (i : Instr) (f : Word → Word → Word → Word × Word),
      (i, f) ∈ [(Instr.set b a, fSet), (.add b a, fAdd), (.sub b a, fSub), (.mul b a, fMul), (.mli b a, fMli),
        (.div b a, fDiv), (.dvi b a, fDvi), (.mod b a, fMod), (.mdi b a, fMdi), (.and b a, fAnd), (.bor b a, fBor),
        (.xor b a, fXor), (.shr b a, fShr), (.asr b a, fAsr), (.shl b a, fShl), (.adx b a, fAdx), (.sbx b a, fSbx)] →
      (exec i s = .next t ↔
        ∃ o u, operands b a s = .ok o ∧ writeLoc o.lb (f o.va o.vb s.ex).1 o.st = .ok u ∧
          t = u.setEx (f o.va o.vb s.ex).2)) ∧
    (∀ (i : Instr) (d : Word), (i, d) ∈ [(Instr.sti b a, 1), (.std b a, 0xffff)] →
      (exec i s = .next t ↔
        ∃ o u, operands b a s = .ok o ∧ writeLoc o.lb o.va o.st = .ok u ∧
          t = { u with ex := 0, x := (u.x.set .I (u.x.I + d)).set .J (u.x.J + d) }))

/-- R141: SET writes a's value to b and 0 to EX; its opcode is 0x01. -/
def Obligations.SetWritesValueAndClearsEx : Prop :=
  ∀ (b a : Operand) (s : State), fieldO (Instr.set b a).firstWord = 0x01 ∧
    (quietPair b a s = true → exec (.set b a) s = .next (aluState b a s (valA b a s) 0)) ∧
    (∀ t, exec (.set b a) s = .next t → t.ex = 0 ∧
      ∃ o u, operands b a s = .ok o ∧ writeLoc o.lb o.va o.st = .ok u ∧ t = u.setEx 0)

/-- R142: ADD writes (a + b) mod 0x10000, EX = 1 iff a + b > 0xffff else 0; its opcode is 0x02. -/
def Obligations.AddWritesSumAndCarry : Prop :=
  ∀ (b a : Operand) (s : State), fieldO (Instr.add b a).firstWord = 0x02 ∧
    (quietPair b a s = true →
      exec (.add b a) s = .next (aluState b a s
        (BitVec.ofNat 16 (((valA b a s).toNat + (valB b a s).toNat) % 0x10000))
        (if (valA b a s).toNat + (valB b a s).toNat > 0xffff then 1 else 0))) ∧
    (∀ t, exec (.add b a) s = .next t →
      ∃ o u, operands b a s = .ok o ∧
        writeLoc o.lb (BitVec.ofNat 16 ((o.va.toNat + o.vb.toNat) % 0x10000)) o.st = .ok u ∧
        t = u.setEx (if o.va.toNat + o.vb.toNat > 0xffff then 1 else 0))

/-- R143 to R145 (formulas: D4): SUB, MUL, MLI. -/
def Obligations.SubMulMliResults : Prop :=
  ∀ (b a : Operand) (s : State), quietPair b a s = true →
    exec (.sub b a) s = .next (aluState b a s (valB b a s - valA b a s)
      (if (valB b a s).toNat < (valA b a s).toNat then 0xffff else 0)) ∧
    exec (.mul b a) s = .next (aluState b a s (valB b a s * valA b a s)
      (BitVec.ofNat 16 ((valB b a s).toNat * (valA b a s).toNat / 65536))) ∧
    exec (.mli b a) s = .next (aluState b a s (valB b a s * valA b a s)
      (BitVec.ofInt 16 ((valB b a s).toInt * (valA b a s).toInt / 65536)))

/-- R146 to R149 (non-zero divisors: D4): DIV, DVI, MOD, MDI; a zero divisor gives 0 and EX 0. -/
def Obligations.DivisionResults : Prop :=
  ∀ (b a : Operand) (s : State), quietPair b a s = true →
    (valA b a s = 0 →
      exec (.div b a) s = .next (aluState b a s 0 0) ∧ exec (.dvi b a) s = .next (aluState b a s 0 0) ∧
      exec (.mod b a) s = .next (aluState b a s 0 0) ∧ exec (.mdi b a) s = .next (aluState b a s 0 0)) ∧
    (valA b a s ≠ 0 →
      exec (.div b a) s = .next (aluState b a s (valB b a s / valA b a s)
        (BitVec.ofNat 16 ((valB b a s).toNat * 65536 / (valA b a s).toNat))) ∧
      exec (.dvi b a) s = .next (aluState b a s (BitVec.ofInt 16 ((valB b a s).toInt.tdiv (valA b a s).toInt))
        (BitVec.ofInt 16 (((valB b a s).toInt * 65536).tdiv (valA b a s).toInt))) ∧
      exec (.mod b a) s = .next (aluState b a s (valB b a s % valA b a s) 0) ∧
      exec (.mdi b a) s = .next (aluState b a s (BitVec.ofInt 16 ((valB b a s).toInt.tmod (valA b a s).toInt)) 0))

/-- R162 (D4): for a non-zero divisor, quotient and remainder give the dividend back, modulo 65536, at every sign
combination, the overflowing one included. -/
def Obligations.DivisionIdentity : Prop :=
  ∀ va vb e : Word, va ≠ 0 →
    va * (fDiv va vb e).1 + (fMod va vb e).1 = vb ∧ va * (fDvi va vb e).1 + (fMdi va vb e).1 = vb

/-- R150 to R152 (D4): AND, BOR, XOR, with EX 0. -/
def Obligations.BitwiseResults : Prop :=
  ∀ (b a : Operand) (s : State), quietPair b a s = true →
    exec (.and b a) s = .next (aluState b a s (valB b a s &&& valA b a s) 0) ∧
    exec (.bor b a) s = .next (aluState b a s (valB b a s ||| valA b a s) 0) ∧
    exec (.xor b a) s = .next (aluState b a s (valB b a s ^^^ valA b a s) 0)

/-- R153 to R155 (D5): SHR, ASR, SHL, the count being the whole unsigned word. -/
def Obligations.ShiftResults : Prop :=
  ∀ (b a : Operand) (s : State), quietPair b a s = true →
    exec (.shr b a) s = .next (aluState b a s (valB b a s >>> (valA b a s).toNat)
      (BitVec.ofNat 16 ((valB b a s).toNat * 65536 / 2 ^ (valA b a s).toNat))) ∧
    exec (.asr b a) s = .next (aluState b a s ((valB b a s).sshiftRight (valA b a s).toNat)
      (BitVec.ofNat 16 ((valB b a s).toNat * 65536 / 2 ^ (valA b a s).toNat))) ∧
    exec (.shl b a) s = .next (aluState b a s (valB b a s <<< (valA b a s).toNat)
      (BitVec.ofNat 16 ((valB b a s).toNat * 2 ^ (valA b a s).toNat / 65536)))

/-- R156, R157 (D4, D32): ADX and SBX, the old EX entering as an unsigned word. -/
def Obligations.AdxSbxResults : Prop :=
  ∀ (b a : Operand) (s : State), quietPair b a s = true →
    exec (.adx b a) s = .next (aluState b a s (valB b a s + valA b a s + s.ex)
      (if (valB b a s).toNat + (valA b a s).toNat + s.ex.toNat > 0xffff then 1 else 0)) ∧
    exec (.sbx b a) s = .next (aluState b a s (valB b a s - valA b a s + s.ex)
      (if (valB b a s).toNat + s.ex.toNat < (valA b a s).toNat then 0xffff
        else if (valB b a s).toNat + s.ex.toNat > (valA b a s).toNat + 0xffff then 1 else 0))

/-- R158, R159 (D4): STI and STD set, and then move I and J by one, a value just written to them included. -/
def Obligations.StiStdResults : Prop :=
  ∀ (b a : Operand) (s : State), quietPair b a s = true →
    exec (.sti b a) s = .next { aluState b a s (valA b a s) 0 with
      x := ((aluState b a s (valA b a s) 0).x.set .I ((aluState b a s (valA b a s) 0).x.I + 1)).set .J
        ((aluState b a s (valA b a s) 0).x.J + 1) } ∧
    exec (.std b a) s = .next { aluState b a s (valA b a s) 0 with
      x := ((aluState b a s (valA b a s) 0).x.set .I ((aluState b a s (valA b a s) 0).x.I - 1)).set .J
        ((aluState b a s (valA b a s) 0).x.J - 1) }

/-- R144, R145, R160 (D4): EX and the result of MUL are the two words of the unsigned product, those of MLI the two words
of the signed one. -/
def Obligations.ProductHighAndLowWords : Prop :=
  ∀ va vb e : Word,
    (fMul va vb e).2.toNat * 65536 + (fMul va vb e).1.toNat = vb.toNat * va.toNat ∧
    (fMli va vb e).2.toInt * 65536 + (fMli va vb e).1.toNat = vb.toInt * va.toInt ∧
    (fMli va vb e).1 = (fMul va vb e).1

/-- R142, R156, R160 (ADX: D4): ADD of the low words and ADX of the high words, with the EX the ADD left, is the 32-bit sum,
and the EX after it its carry out. -/
def Obligations.AddThenAdxIsWideAdd : Prop :=
  ∀ la ha lb hb e : Word,
    (fAdx ha hb (fAdd la lb e).2).2.toNat * 2 ^ 32 + (fAdx ha hb (fAdd la lb e).2).1.toNat * 2 ^ 16 +
        (fAdd la lb e).1.toNat =
      (ha.toNat * 2 ^ 16 + la.toNat) + (hb.toNat * 2 ^ 16 + lb.toNat)

/-- The frame of the 19 ALU instructions, with any devices (R140, R52, R106): every general register but the
destination (and I and J for STI and STD), SP but as a destination and for the stack operands, PC but as a
destination, IA, queueing, skip, running, the counter, the registry and the diagnostics are unchanged and the queue
only grows. Where no device watches the operands, so are the queue, the devices' states, and every byte of memory but
the word at the destination's address. -/
def Obligations.AluFrame : Prop :=
  ∀ (b a : Operand) (s t : State) (i : Instr),
    i ∈ [Instr.set b a, .add b a, .sub b a, .mul b a, .mli b a, .div b a, .dvi b a, .mod b a, .mdi b a, .and b a,
      .bor b a, .xor b a, .shr b a, .asr b a, .shl b a, .adx b a, .sbx b a, .sti b a, .std b a] →
    exec i s = .next t →
    (∀ r, b ≠ .reg r → (i = .sti b a ∨ i = .std b a → r ≠ .I ∧ r ≠ .J) → t.x.get r = s.x.get r) ∧
    (b ≠ .sp → t.sp = s.sp + spMove .asA a + spMove .asB b) ∧
    (b ≠ .pc → t.pc = s.pc) ∧
    s.SameControl t ∧ s.SameEngine t ∧
    (quietPair b a s = true → t.irqq = s.irqq ∧ t.dev = s.dev ∧
      ∀ addr : Word, (locate b a s).lb ≠ .mem addr → t.mem.read addr = s.mem.read addr)

/-! ### Conditional instructions -/

/-- R180, with any devices: a conditional gives a next state exactly where both values can be read, a first; when its
predicate of (b compared to a) is false it sets `skip`, and nothing else. -/
def Obligations.ConditionalCommonRule : Prop :=
  ∀ (b a : Operand) (s t : State) (i : Instr) (p : Word → Word → Bool),
    (i, p) ∈ [(Instr.ifb b a, pIfb), (.ifc b a, pIfc), (.ife b a, pIfe), (.ifn b a, pIfn), (.ifg b a, pIfg),
      (.ifa b a, pIfa), (.ifl b a, pIfl), (.ifu b a, pIfu)] →
    (exec i s = .next t ↔
      ∃ o, operands b a s = .ok o ∧ t = if p o.va o.vb then o.st else { o.st with skip := true })

/-- R181 to R188 (predicates: D6): each conditional completes, and enters the skip state exactly when its predicate is
false. -/
def Obligations.ConditionalResults : Prop :=
  ∀ (b a : Operand) (s : State) (i : Instr) (p : Bool), quietPair b a s = true →
    (i, p) ∈ [(Instr.ifb b a, decide (valB b a s &&& valA b a s ≠ 0)),
      (.ifc b a, decide (valB b a s &&& valA b a s = 0)),
      (.ife b a, decide (valB b a s = valA b a s)), (.ifn b a, decide (valB b a s ≠ valA b a s)),
      (.ifg b a, (valA b a s).ult (valB b a s)), (.ifa b a, (valA b a s).slt (valB b a s)),
      (.ifl b a, (valB b a s).ult (valA b a s)), (.ifu b a, (valB b a s).slt (valA b a s))] →
    exec i s = .next { (locate b a s).st with skip := s.skip || !p }

/-- The frame of the 8 conditionals, with any devices (R180, R191, R192): nothing changes but `skip` and, for the stack
operands, SP; the queue only grows. Where no device watches the operands, all of memory, the queue and the devices'
states are unchanged. -/
def Obligations.ConditionalFrame : Prop :=
  ∀ (b a : Operand) (s t : State) (i : Instr),
    i ∈ [Instr.ifb b a, .ifc b a, .ife b a, .ifn b a, .ifg b a, .ifa b a, .ifl b a, .ifu b a] →
    exec i s = .next t →
    t.x = s.x ∧ t.sp = s.sp + spMove .asA a + spMove .asB b ∧ t.pc = s.pc ∧ t.ex = s.ex ∧ t.ia = s.ia ∧
    t.iaq = s.iaq ∧ t.running = s.running ∧ (t.skip = s.skip ∨ t.skip = true) ∧ s.SameEngine t ∧
    (quietPair b a s = true → t.irqq = s.irqq ∧ t.dev = s.dev ∧ ∀ addr : Word, t.mem.read addr = s.mem.read addr)

/-! ### Special instructions -/

/-- R201: JSR pushes the address of the next instruction and jumps to its operand's value, read before the push; its
first word is (a << 10) | 0x0020. -/
def Obligations.JsrPushesAndJumps : Prop :=
  ∀ (a : Operand) (s : State),
    (a.wfA = true → (Instr.jsr a).firstWord.toNat = a.code * 1024 ||| 0x0020) ∧
    (quietOne a s = true → s.quiet (s.sp + spMove .asA a - 1) = true →
      exec (.jsr a) s = .next { s with
        sp := s.sp + spMove .asA a - 1
        mem := s.mem.write (s.sp + spMove .asA a - 1) s.pc
        pc := val a s }) ∧
    (∀ t, exec (.jsr a) s = .next t ↔
      ∃ o u, operand a s = .ok o ∧ push o.st.pc o.st = .ok u ∧ t = { u with pc := o.va })

/-- R220: HCF clears `running` and changes nothing else; the step that executes it moves PC past it, counts its cycle and
leaves the queue's messages waiting, and no step is taken after it; no other instruction stops the machine; its first
word is (a << 10) | 0x00e0. That no step follows is R101's, and the fault `notRunning` that says so the model's choice
(log entry 5). -/
def Obligations.HcfHalts : Prop :=
  ∀ (a : Operand) (s : State),
    (a.wfA = true → (Instr.hcf a).firstWord.toNat = a.code * 1024 ||| 0x00e0) ∧
    (quietOne a s = true → exec (.hcf a) s = .next { s with sp := s.sp + spMove .asA a, running := false }) ∧
    (∀ t, exec (.hcf a) s = .next t ↔ ∃ o, operand a s = .ok o ∧ t = { o.st with running := false }) ∧
    (∀ t, exec (.hcf a) s = .next t → s.EnvStep { t with running := s.running, sp := s.sp } ∧
      t.running = false ∧ t.sp = s.sp + spMove .asA a) ∧
    (∀ s1 r t, s.skip = false → deliverInterrupt s = .ok s1 → fetch s1 = .ok r → r.d = .instr (.hcf a) →
      step s = .next t → t.running = false ∧ t.pc = s1.pc + BitVec.ofNat 16 (wordLength r.w) ∧
        t.cycles = s.cycles + 1 ∧ s1.irqq <+: t.irqq ∧ step t = .fault .notRunning) ∧
    (∀ i t, exec i s = .next t → t.running ≠ s.running → ∃ c, i = .hcf c)

/-- R200, R208, R202 to R218 (D3, D13, D17), with any devices: each special instruction but JSR and HCF gives a next state
exactly where its operand's value can be read and its own effect, from there, gives that state. -/
def Obligations.SpecialCommonRule : Prop :=
  ∀ (a : Operand) (s t : State) (i : Instr) (e : Single → Except Fault State),
    (i, e) ∈ [(Instr.int a, fun o => irq o.va o.st),
      (.iag a, fun o => writeLoc o.la s.ia o.st),
      (.ias a, fun o => .ok { o.st with ia := o.va }),
      (.rfi a, fun o => returnFromInterrupt o.st),
      (.iaq a, fun o => .ok { o.st with iaq := o.va != 0 }),
      (.hwn a, fun o => writeLoc o.la (BitVec.ofNat 16 s.devices.length) o.st),
      (.hwq a, fun o => if h : o.va.toNat < s.devices.length
        then .ok (loadDescriptor s.devices[o.va.toNat].descriptor o.st) else .error (.noSuchDevice o.va)),
      (.hwi a, fun o => if h : o.va.toNat < s.devices.length
        then dispatchDevice o.va.toNat s.devices[o.va.toNat] o.st else .error (.noSuchDevice o.va))] →
    (exec i s = .next t ↔ ∃ o, operand a s = .ok o ∧ o.va = val a s ∧ e o = .ok t)

/-- R202, R237 (D13, D15): INT appends its operand's value to the queue; with 256 messages waiting there is no next
state, nor with more, which no run reaches (the test is 256 or more where the rules say exactly 256: DEDUCED, log
entry 18). -/
def Obligations.IntQueuesMessage : Prop :=
  ∀ (a : Operand) (s : State), quietOne a s = true →
    (s.irqq.length < 256 →
      exec (.int a) s = .next { s with sp := s.sp + spMove .asA a, irqq := s.irqq ++ [val a s] }) ∧
    (256 ≤ s.irqq.length → exec (.int a) s = .fault .interruptQueueOverflow)

/-- R204, R206, R210 (D13): IAG copies IA to its operand, IAS sets IA, IAQ sets queueing iff its operand is not 0. -/
def Obligations.InterruptControlResults : Prop :=
  ∀ (a : Operand) (s : State), quietOne a s = true →
    exec (.iag a) s = .next (pokeLoc (resolve .asA a s).1 s.ia { s with sp := s.sp + spMove .asA a }) ∧
    exec (.ias a) s = .next { s with sp := s.sp + spMove .asA a, ia := val a s } ∧
    exec (.iaq a) s = .next { s with sp := s.sp + spMove .asA a, iaq := val a s != 0 }

/-- R208 (D13): RFI clears queueing and pops A and then PC, after its operand is resolved. -/
def Obligations.RfiPopsAThenPc : Prop :=
  ∀ (a : Operand) (s : State), quietOne a s = true → s.quiet (s.sp + spMove .asA a) = true →
    s.quiet (s.sp + spMove .asA a + 1) = true →
    exec (.rfi a) s = .next { s with
      iaq := false
      x := s.x.set .A (s.mem.read (s.sp + spMove .asA a))
      pc := s.mem.read (s.sp + spMove .asA a + 1)
      sp := s.sp + spMove .asA a + 2 }

/-- R214, R216, R217 (D17, D18): HWN gives the number of devices; HWQ gives the descriptor of the device its operand names
in A, B, C, X, Y, and has no next state where there is none. -/
def Obligations.DeviceEnumerationResults : Prop :=
  ∀ (a : Operand) (s : State), quietOne a s = true →
    exec (.hwn a) s = .next (pokeLoc (resolve .asA a s).1 (BitVec.ofNat 16 s.devices.length)
      { s with sp := s.sp + spMove .asA a }) ∧
    (∀ d, s.devices[(val a s).toNat]? = some d →
      exec (.hwq a) s = .next { s with
        sp := s.sp + spMove .asA a
        x := { s.x with
          A := BitVec.ofNat 16 (d.descriptor.id.toNat % 65536)
          B := BitVec.ofNat 16 (d.descriptor.id.toNat / 65536)
          C := d.descriptor.version
          X := BitVec.ofNat 16 (d.descriptor.manufacturer.toNat % 65536)
          Y := BitVec.ofNat 16 (d.descriptor.manufacturer.toNat / 65536) } }) ∧
    (s.devices.length ≤ (val a s).toNat → exec (.hwq a) s = .fault (.noSuchDevice (val a s)))

/-- R218, R219, R237 (D18, D19): HWI to a device with the interrupt capability gives it its state, the register file and
memory, and takes its answer: state, all eleven registers, raw memory writes, messages; a device without the
capability does nothing; a number that names none has no next state, nor has a queue overflow. -/
def Obligations.HwiDispatchResults : Prop :=
  ∀ (a : Operand) (s : State), quietOne a s = true →
    (s.devices.length ≤ (val a s).toNat → exec (.hwi a) s = .fault (.noSuchDevice (val a s))) ∧
    (∀ d, s.devices[(val a s).toNat]? = some d → d.interrupt = none →
      exec (.hwi a) s = .next { s with sp := s.sp + spMove .asA a }) ∧
    (∀ d h r, s.devices[(val a s).toNat]? = some d → d.interrupt = some h →
      r = h.answer Config.interrupt (s.devState (val a s).toNat, ⟨s.x, s.sp + spMove .asA a, s.pc, s.ex⟩, s.mem) →
      (s.irqq.length + r.irqs.length ≤ 256 →
        exec (.hwi a) s = .next { s with
          x := r.regs.x, sp := r.regs.sp, pc := r.regs.pc, ex := r.regs.ex
          dev := s.dev.set (val a s).toNat r.dev
          mem := s.mem.writeAll r.writes
          irqq := s.irqq ++ r.irqs }) ∧
      (s.irqq.length ≤ 256 → 256 < s.irqq.length + r.irqs.length →
        exec (.hwi a) s = .fault .interruptQueueOverflow))

/-- The frames of the special instructions but HWI, with any devices (R200, R52): what each leaves unchanged. -/
def Obligations.SpecialFrame : Prop :=
  ∀ (a : Operand) (s t : State),
    (exec (.jsr a) s = .next t →
      t.x = s.x ∧ t.ex = s.ex ∧ t.sp = s.sp + spMove .asA a - 1 ∧ s.SameControl t ∧ s.SameEngine t ∧
      (quietOne a s = true → s.quiet (s.sp + spMove .asA a - 1) = true →
        ∀ addr : Word, addr ≠ s.sp + spMove .asA a - 1 → t.mem.read addr = s.mem.read addr)) ∧
    (∀ i ∈ [Instr.hcf a, .int a, .ias a, .iaq a], exec i s = .next t →
      t.x = s.x ∧ t.ex = s.ex ∧ t.pc = s.pc ∧ t.sp = s.sp + spMove .asA a ∧ s.SameEngine t ∧
      (i ≠ .hcf a → t.running = s.running) ∧ (i ≠ .ias a → t.ia = s.ia) ∧ (i ≠ .iaq a → t.iaq = s.iaq) ∧
      t.skip = s.skip ∧
      (quietOne a s = true → t.dev = s.dev ∧ (i ≠ .int a → t.irqq = s.irqq) ∧
        ∀ addr : Word, t.mem.read addr = s.mem.read addr)) ∧
    (∀ i ∈ [Instr.iag a, .hwn a], exec i s = .next t →
      (∀ r, a ≠ .reg r → t.x.get r = s.x.get r) ∧ (a ≠ .ex → t.ex = s.ex) ∧ (a ≠ .pc → t.pc = s.pc) ∧
      (a ≠ .sp → t.sp = s.sp + spMove .asA a) ∧ s.SameControl t ∧ s.SameEngine t ∧
      (quietOne a s = true → t.dev = s.dev ∧ t.irqq = s.irqq ∧
        ∀ addr : Word, (resolve .asA a s).1 ≠ .mem addr → t.mem.read addr = s.mem.read addr)) ∧
    (exec (.rfi a) s = .next t →
      (∀ r, r ≠ .A → t.x.get r = s.x.get r) ∧ t.ex = s.ex ∧ t.sp = s.sp + spMove .asA a + 2 ∧ t.ia = s.ia ∧
      t.skip = s.skip ∧ t.running = s.running ∧ s.SameEngine t ∧
      (quietOne a s = true → s.quiet (s.sp + spMove .asA a) = true → s.quiet (s.sp + spMove .asA a + 1) = true →
        t.dev = s.dev ∧ t.irqq = s.irqq ∧ ∀ addr : Word, t.mem.read addr = s.mem.read addr)) ∧
    (exec (.hwq a) s = .next t →
      t.x.Z = s.x.Z ∧ t.x.I = s.x.I ∧ t.x.J = s.x.J ∧ t.ex = s.ex ∧ t.pc = s.pc ∧
      t.sp = s.sp + spMove .asA a ∧ s.SameControl t ∧ s.SameEngine t ∧
      (quietOne a s = true → t.dev = s.dev ∧ t.irqq = s.irqq ∧
        ∀ addr : Word, t.mem.read addr = s.mem.read addr))

/-! ### Whole-machine rules -/

/-- R222, R200, R180, over all 37 instructions and with any devices, the one HWI dispatches to included: IA is written by
IAS alone, queueing by IAQ and RFI alone, `running` by HCF alone, `skip` by a conditional alone and then only
set; the counter, the registry and the diagnostics by none; and no instruction takes a message out of the queue. -/
def Obligations.ControlStateWriters : Prop :=
  ∀ (i : Instr) (s t : State), exec i s = .next t →
    ((∀ a, i ≠ .ias a) → t.ia = s.ia) ∧
    ((∀ a, i ≠ .iaq a ∧ i ≠ .rfi a) → t.iaq = s.iaq) ∧
    ((∀ a, i ≠ .hcf a) → t.running = s.running) ∧
    (t.skip ≠ s.skip → t.skip = true ∧ isConditional i.firstWord = true) ∧
    t.running.toNat ≤ s.running.toNat ∧ s.SameEngine t

/-- R15, R140, R191, R200 (D3): EX is written by the ALU instructions, by IAG and HWN with EX as their operand and by a
device in an HWI dispatch, and by no other instruction. -/
def Obligations.ExWriters : Prop :=
  ∀ (i : Instr) (s t : State), exec i s = .next t → t.ex ≠ s.ex →
    (∃ b, i.opB = some b ∧ isConditional i.firstWord = false) ∨ i = .iag .ex ∨ i = .hwn .ex ∨ ∃ a, i = .hwi a

/-- R7, R214 (D15, D20, D27): the state after reset satisfies the invariant. -/
def Obligations.ResetSatisfiesInvariant : Prop := State.reset.inv = true

/-- R18, R23, R24, R49: every step keeps the invariant: memory in canonical form, at most 256 messages waiting, a legal
registry with one state for each device. -/
def Obligations.StepKeepsInvariant : Prop :=
  ∀ s t : State, s.inv = true → step s = .next t → t.inv = true

/-- R8, R53, R61, R260, R275: so does every move of the machine's environment, and so every reachable state satisfies
the invariant, under any interleaving of steps, ticks, host operations and resets. -/
def Obligations.ReachableStatesSatisfyInvariant : Prop := ∀ s : State, Reachable s → s.inv = true

/-- R24: DEVICES is fixed for the life of the core: no move but a reset changes it. -/
def Obligations.RegistryIsFixed : Prop :=
  ∀ (m : Move) (s t : State), (∀ image devs, m ≠ .reset image devs) → move m s = .next t →
    t.devices = s.devices ∧ t.dev.length = s.dev.length

/-- R53, R52, R236, R237 (D15, D26): a tick takes the device's answer to its state and memory: its new state, its raw writes, and
its requests appended in order; with no room for them there is no next state. It changes no register and no control
bit; the other devices keep their states; the counter does not move. That a device without the capability is refused is
log entry 19 (DEDUCED), and that the tick does not look at `running` the model's choice (log entry 21). -/
def Obligations.TickLeavesRegisters : Prop :=
  ∀ (k : Nat) (s : State),
    (∀ d h r, s.devices[k]? = some d → d.tick = some h → r = h.answer Config.tick (s.devState k, s.mem) →
      (s.irqq.length + r.irqs.length ≤ 256 →
        tick k s = .next { s with
          dev := s.dev.set k r.dev
          mem := s.mem.writeAll r.writes
          irqq := s.irqq ++ r.irqs }) ∧
      (s.irqq.length ≤ 256 → 256 < s.irqq.length + r.irqs.length → tick k s = .fault .interruptQueueOverflow)) ∧
    ((∀ d h, s.devices[k]? = some d → d.tick ≠ some h) → tick k s = .refused .noTick) ∧
    (∀ t, tick k s = .next t → s.EnvStep t ∧ ∀ j, j ≠ k → t.devState j = s.devState j)

/-- R127, R230 (D12, D36): no rule of the machine reads the cycle counter or the diagnostics emitted: a step from a state
with other values of them does the same, counts one cycle and appends the same diagnostics. -/
def Obligations.CounterAndDiagnosticsAreNeverRead : Prop :=
  ∀ (s : State) (n : Nat) (ds : List Diag),
    match step s with
    | .next t => ∃ new, t.diags = s.diags ++ new ∧
        step { s with cycles := n, diags := ds } = .next { t with cycles := n + 1, diags := ds ++ new }
    | .fault f => step { s with cycles := n, diags := ds } = .fault f
    | .refused r => step { s with cycles := n, diags := ds } = .refused r
end

