-- ==== Sys2Proof/Laws/Decode.lean ====
section
/-! SUPPORT. The small lemmas of the encoding: register numbers, operand codes, the fields of a first word. -/

namespace Sys2Proof

@[simp] theorem Reg.ofCode_code (r : Reg) : Reg.ofCode r.code = r := by cases r <;> rfl

theorem Reg.code_lt (r : Reg) : r.code < 8 := by cases r <;> decide

theorem Reg.code_ofCode {n : Nat} (h : n < 8) : (Reg.ofCode n).code = n := by
  match n, h with
  | 0, _ | 1, _ | 2, _ | 3, _ | 4, _ | 5, _ | 6, _ | 7, _ => rfl

/-! ### Operand codes -/

theorem toNat_add_33 (v : Word) : (v + 0x21).toNat = (v.toNat + 33) % 65536 := BitVec.toNat_add v 0x21

theorem toNat_add_1 (v : Word) : (v + 1).toNat = (v.toNat + 1) % 65536 := BitVec.toNat_add v 1

theorem toNat_inline (c : Nat) : (w16 ((c : Int) - 0x21)).toNat = (((c : Int) - 0x21) % 65536).toNat :=
  BitVec.toNat_ofInt _

/-- The value of the inline literal of code `c` and back (R76). -/
theorem inline_code {c : Nat} (h1 : 0x20 ≤ c) (h2 : c < 64) :
    (w16 ((c : Int) - 0x21) + 0x21).toNat = c ∧ (w16 ((c : Int) - 0x21) + 1).toNat = c - 0x20 := by
  rw [toNat_add_33, toNat_add_1, toNat_inline]
  omega

theorem Operand.code_lt_64 {o : Operand} (h : o.wfA = true) : o.code < 64 := by
  cases o <;> simp only [Operand.code]
  case reg r => have := r.code_lt; omega
  case ind r => have := r.code_lt; omega
  case indNext r n => have := r.code_lt; omega
  case inline v =>
    simp only [Operand.wfA, decide_eq_true_eq, toNat_add_1] at h
    rw [toNat_add_33]
    omega
  all_goals decide

theorem Operand.code_lt_32 {o : Operand} (h : o.wfB = true) : o.code < 32 := by
  cases o <;> simp only [Operand.code]
  case reg r => have := r.code_lt; omega
  case ind r => have := r.code_lt; omega
  case indNext r n => have := r.code_lt; omega
  case inline v => cases h
  all_goals decide

/-- An operand without an inline literal is encodable as operand a too. -/
theorem Operand.wfA_of_wfB {o : Operand} (h : o.wfB = true) : o.wfA = true := by
  cases o <;> first | rfl | cases h

/-- Every code from 0x20 on is an inline literal: the codes with a form of their own end at 0x1f (R73, R76). -/
theorem decodeOperand_inline {c : Nat} (h : 0x20 ≤ c) (x : Word) :
    decodeOperand c x = .inline (w16 ((c : Int) - 0x21)) := by
  unfold decodeOperand
  repeat rw [if_neg (Nat.not_lt.2 (Nat.le_trans (by decide) h))]
  repeat rw [if_neg (Nat.ne_of_gt (Nat.lt_of_lt_of_le (by decide) h))]

/-- Decoding an operand's code with its extra word gives the operand back. -/
theorem decodeOperand_code {o : Operand} (h : o.wfA = true) (x : Word) :
    decodeOperand o.code (o.extra.headD x) = o := by
  cases o
  case reg r => cases r <;> rfl
  case ind r => cases r <;> rfl
  case indNext r n => cases r <;> rfl
  case inline v =>
    simp only [Operand.wfA, decide_eq_true_eq, toNat_add_1] at h
    have hlt := v.isLt
    simp only [Operand.code, toNat_add_33]
    rw [decodeOperand_inline (by omega)]
    congr 1
    apply BitVec.eq_of_toNat_eq
    rw [toNat_inline]
    omega
  all_goals rfl

theorem Operand.extra_length {o : Operand} (h : o.wfA = true) : o.extra.length = xw o.code := by
  cases o
  case reg r => cases r <;> rfl
  case ind r => cases r <;> rfl
  case indNext r n => cases r <;> rfl
  case inline v =>
    simp only [Operand.wfA, decide_eq_true_eq, toNat_add_1] at h
    have hlt := v.isLt
    simp only [Operand.extra, Operand.code, xw, toNat_add_33]
    rw [if_neg (by omega)]
    rfl
  all_goals rfl

/-- What decoding a code of the six-bit field gives: an encodable operand with that code, whose extra word is
`x` where the code has one. -/
theorem decodeOperand_spec {c : Nat} (x : Word) (h : c < 64) :
    (decodeOperand c x).wfA = true ∧ (decodeOperand c x).code = c ∧
      (decodeOperand c x).extra = if xw c = 1 then [x] else [] := by
  by_cases hc : 0x20 ≤ c
  · obtain ⟨h1, h2⟩ := inline_code hc h
    rw [decodeOperand_inline hc]
    refine ⟨?_, h1, ?_⟩
    · simp only [Operand.wfA, decide_eq_true_eq]; rw [h2]; omega
    · rw [if_neg]
      · rfl
      · unfold xw; split <;> omega
  · interval_cases c <;> exact ⟨rfl, rfl, rfl⟩

theorem decodeOperand_wfB {c : Nat} (x : Word) (h : c < 32) : (decodeOperand c x).wfB = true := by
  interval_cases c <;> rfl

/-! ### The fields of a first word -/

theorem fieldA_lt (w : Word) : fieldA w < 64 := by unfold fieldA; have := w.isLt; omega

theorem fieldB_lt (w : Word) : fieldB w < 32 := by unfold fieldB; omega

theorem fieldO_lt (w : Word) : fieldO w < 32 := by unfold fieldO; omega

theorem fields_ofNat {a b o : Nat} (ha : a < 64) (hb : b < 32) (ho : o < 32) :
    fieldA (BitVec.ofNat 16 (a * 1024 + b * 32 + o)) = a ∧ fieldB (BitVec.ofNat 16 (a * 1024 + b * 32 + o)) = b ∧
      fieldO (BitVec.ofNat 16 (a * 1024 + b * 32 + o)) = o := by
  simp only [fieldA, fieldB, fieldO, BitVec.toNat_ofNat]
  omega

/-- A first word is its three fields. -/
theorem ofNat_fields (w : Word) : BitVec.ofNat 16 (fieldA w * 1024 + fieldB w * 32 + fieldO w) = w := by
  apply BitVec.eq_of_toNat_eq
  simp only [fieldA, fieldB, fieldO, BitVec.toNat_ofNat]
  have := w.isLt
  omega

theorem Instr.opcode_lt (i : Instr) : i.opcode < 32 := by cases i <;> simp [Instr.opcode]

/-! ### The opcode maps -/

/-- A basic opcode's instruction has that opcode and those operands. -/
theorem basicInstr_eq_some {o : Nat} {b a : Operand} {i : Instr} (h : basicInstr o b a = some i) :
    i.opcode = o ∧ i.opB = some b ∧ i.opA = a := by
  unfold basicInstr at h
  split at h <;> first | (cases h; done) | (cases h; exact ⟨rfl, rfl, rfl⟩)

theorem specialInstr_eq_some {o : Nat} {a : Operand} {i : Instr} (h : specialInstr o a = some i) :
    i.opcode = o ∧ i.opB = none ∧ i.opA = a := by
  unfold specialInstr at h
  split at h <;> first | (cases h; done) | (cases h; exact ⟨rfl, rfl, rfl⟩)

/-- ... and the other way round. -/
theorem basicInstr_opcode {i : Instr} {b : Operand} (h : i.opB = some b) :
    basicInstr i.opcode b i.opA = some i ∧ i.opcode ≠ 0 := by
  cases i <;> simp only [Instr.opB, Option.some.injEq, reduceCtorEq] at h <;> subst h <;> exact ⟨rfl, by simp [Instr.opcode]⟩

theorem specialInstr_opcode {i : Instr} (h : i.opB = none) : specialInstr i.opcode i.opA = some i := by
  cases i <;> simp only [Instr.opB, reduceCtorEq] at h <;> rfl

/-- Well-formedness by operands. -/
theorem Instr.wf_iff (i : Instr) : i.wf = true ↔ i.opA.wfA = true ∧ ∀ b, i.opB = some b → b.wfB = true := by
  cases i <;> simp [Instr.wf, Instr.opA, Instr.opB, Operand.wfPair, and_comm]

/-! ### Extra words -/

theorem xw_le_one (c : Nat) : xw c ≤ 1 := by unfold xw; split <;> omega

/-- An operand code without an extra word does not depend on the word offered. -/
theorem decodeOperand_irrelevant {c : Nat} (h : xw c = 0) (x y : Word) : decodeOperand c x = decodeOperand c y := by
  by_cases hc : 0x20 ≤ c
  · rw [decodeOperand_inline hc, decodeOperand_inline hc]
  · interval_cases c <;> first | rfl | cases h

/-- The words an instruction does not consume play no part in its decoding. -/
theorem decode_irrelevant {w x1 x2 y1 y2 : Word} (h1 : 1 ≤ extraWords w → x1 = y1) (h2 : 2 ≤ extraWords w → x2 = y2) :
    decode w x1 x2 = decode w y1 y2 := by
  have hA : decodeOperand (fieldA w) x1 = decodeOperand (fieldA w) y1 := by
    by_cases h : xw (fieldA w) = 0
    · exact decodeOperand_irrelevant h _ _
    · rw [h1]; unfold extraWords; split <;> omega
  have ha := xw_le_one (fieldA w)
  have hb := xw_le_one (fieldB w)
  unfold decode
  rw [hA]
  by_cases h0 : fieldO w = 0
  · simp only [h0, if_true]
  · have e : extraWords w = xw (fieldA w) + xw (fieldB w) := by simp [extraWords, h0]
    have hB : decodeOperand (fieldB w) (if xw (fieldA w) = 1 then x2 else x1) =
        decodeOperand (fieldB w) (if xw (fieldA w) = 1 then y2 else y1) := by
      by_cases hb0 : xw (fieldB w) = 0
      · exact decodeOperand_irrelevant hb0 _ _
      · split
        · rw [h2 (by omega)]
        · rw [h1 (by omega)]
    simp only [hB]

/-- An encodable operand either has no extra word, or exactly one, which it decodes from. -/
theorem Operand.extra_cases {o : Operand} (h : o.wfA = true) :
    (xw o.code = 0 ∧ o.extra = [] ∧ ∀ y, decodeOperand o.code y = o) ∨
    (∃ x, xw o.code = 1 ∧ o.extra = [x] ∧ decodeOperand o.code x = o) := by
  have hl := Operand.extra_length h
  have hd := decodeOperand_code h
  cases hx : o.extra with
  | nil => left; rw [hx] at hl hd; exact ⟨hl.symm, rfl, hd⟩
  | cons x xs =>
    rw [hx] at hl hd
    have : xw o.code ≤ 1 := by unfold xw; split <;> omega
    cases xs with
    | nil => exact .inr ⟨x, hl.symm, rfl, hd 0⟩
    | cons => simp at hl; omega

end Sys2Proof
end

