-- ==== Sys2Proof/Laws/Memory.lean ====
section
/-! SUPPORT. The laws of the raw memory: read after write, and the canonical form every operation keeps. -/

namespace Sys2Proof.Memory

theorem lookup_insert_ne (m : Memory) {a b : Nat} (v : Word) (h : b ≠ a) :
    (Memory.insert m a v).lookup b = m.lookup b := by
  induction m with
  | nil =>
    simp only [Memory.insert]
    split <;> simp [Memory.lookup, Ne.symm h]
  | cons c m ih =>
    obtain ⟨k, w⟩ := c
    simp only [Memory.insert]
    split
    · split <;> simp [Memory.lookup, Ne.symm h]
    · split
      · subst_vars
        split <;> simp [Memory.lookup, Ne.symm h]
      · simp [Memory.lookup, ih]

/-- A write leaves every other address alone, whatever the form of the list. -/
theorem read_write_ne (m : Memory) {a b : Word} (v : Word) (h : b ≠ a) : (m.write a v).read b = m.read b :=
  lookup_insert_ne m v (fun e => h (BitVec.eq_of_toNat_eq e))

theorem lookup_of_lt {m : Memory} {lo a : Nat} (h : m.wfFrom lo = true) (ha : a < lo) : m.lookup a = 0 := by
  induction m generalizing lo with
  | nil => rfl
  | cons c m ih =>
    obtain ⟨k, w⟩ := c
    simp only [Memory.wfFrom, Bool.and_eq_true, decide_eq_true_eq] at h
    simp only [Memory.lookup, show k ≠ a by omega, if_false]
    exact ih h.2 (by omega)

theorem lookup_insert_same {m : Memory} {lo : Nat} (a : Nat) (v : Word) (h : m.wfFrom lo = true) :
    (Memory.insert m a v).lookup a = v := by
  induction m generalizing lo with
  | nil =>
    simp only [Memory.insert]
    split <;> simp_all [Memory.lookup]
  | cons c m ih =>
    obtain ⟨k, w⟩ := c
    simp only [Memory.wfFrom, Bool.and_eq_true, decide_eq_true_eq] at h
    obtain ⟨⟨⟨h1, h2⟩, h3⟩, h4⟩ := h
    simp only [Memory.insert]
    split
    · rename_i hlt
      split
      · rename_i hv
        simp only [Memory.lookup, show k ≠ a by omega, if_false, hv]
        exact lookup_of_lt h4 (by omega)
      · simp [Memory.lookup]
    · split
      · rename_i heq
        split
        · rename_i hv
          rw [hv]
          exact lookup_of_lt h4 (by omega)
        · simp [Memory.lookup]
      · rename_i hne
        simp only [Memory.lookup, Ne.symm hne, if_false]
        exact ih h4

/-- A read after a write to the same address gives the value written. -/
theorem read_write_same {m : Memory} (a v : Word) (h : m.wf = true) : (m.write a v).read a = v :=
  lookup_insert_same a.toNat v h

theorem wfFrom_insert {m : Memory} {lo a : Nat} (v : Word) (h : m.wfFrom lo = true) (ha : lo ≤ a)
    (hm : a < Config.memWords) : (Memory.insert m a v).wfFrom lo = true := by
  induction m generalizing lo with
  | nil =>
    simp only [Memory.insert]
    split <;> simp_all [Memory.wfFrom]
  | cons c m ih =>
    obtain ⟨k, w⟩ := c
    have h0 := h
    simp only [Memory.wfFrom, Bool.and_eq_true, decide_eq_true_eq] at h
    obtain ⟨⟨⟨h1, h2⟩, h3⟩, h4⟩ := h
    simp only [Memory.insert]
    split
    · rename_i hlt
      split
      · exact h0
      · rename_i hv
        simp only [Memory.wfFrom, Bool.and_eq_true, decide_eq_true_eq]
        exact ⟨⟨⟨ha, hm⟩, hv⟩, ⟨⟨⟨by omega, h2⟩, h3⟩, h4⟩⟩
    · split
      · rename_i heq
        split
        · cases m with
          | nil => rfl
          | cons d m =>
            obtain ⟨k', w'⟩ := d
            simp only [Memory.wfFrom, Bool.and_eq_true, decide_eq_true_eq] at h4 ⊢
            exact ⟨⟨⟨by omega, h4.1.1.2⟩, h4.1.2⟩, h4.2⟩
        · rename_i hv
          simp only [Memory.wfFrom, Bool.and_eq_true, decide_eq_true_eq]
          exact ⟨⟨⟨ha, hm⟩, hv⟩, heq ▸ h4⟩
      · rename_i hne
        simp only [Memory.wfFrom, Bool.and_eq_true, decide_eq_true_eq]
        exact ⟨⟨⟨h1, h2⟩, h3⟩, ih h4 (by omega)⟩

/-- A raw store keeps the canonical form. -/
theorem wf_write {m : Memory} (a v : Word) (h : m.wf = true) : (m.write a v).wf = true :=
  wfFrom_insert v h (Nat.zero_le _) a.isLt

/-- Raw stores keep the canonical form. -/
theorem wf_writeAll {m : Memory} (ws : List (Word × Word)) (h : m.wf = true) : (m.writeAll ws).wf = true := by
  induction ws generalizing m with
  | nil => exact h
  | cons c ws ih => exact ih (wf_write c.1 c.2 h)

/-- The empty memory is in canonical form and reads as 0 everywhere. -/
theorem wf_nil : Memory.wf [] = true := rfl

@[simp] theorem read_nil (a : Word) : Memory.read [] a = 0 := rfl

end Sys2Proof.Memory
end

