-- ==== Sys2Proof/Laws/State.lean ====
section
/-! SUPPORT. One lemma for each field of State under each update, so that no proof unfolds a record update; and
the laws of the register file. -/

namespace Sys2Proof

@[simp] theorem Regs.get_set_same (x : Regs) (r : Reg) (v : Word) : (x.set r v).get r = v := by cases r <;> rfl

@[simp] theorem Regs.get_set_ne (x : Regs) {r q : Reg} (v : Word) (h : q ≠ r) : (x.set r v).get q = x.get q := by
  cases r <;> cases q <;> first | rfl | exact absurd rfl h

/-- Two register files that agree on every register are equal. -/
theorem Regs.ext_get {x y : Regs} (h : ∀ r, x.get r = y.get r) : x = y := by
  obtain ⟨_, _, _, _, _, _, _, _⟩ := x
  obtain ⟨_, _, _, _, _, _, _, _⟩ := y
  have := h .A; have := h .B; have := h .C; have := h .X
  have := h .Y; have := h .Z; have := h .I; have := h .J
  simp_all [Regs.get]

namespace Machine

variable (s : State)

@[simp] theorem State.setReg_x (r : Reg) (v : Word) : (s.setReg r v).x = s.x.set r v := rfl
@[simp] theorem State.setReg_sp (r : Reg) (v : Word) : (s.setReg r v).sp = s.sp := rfl
@[simp] theorem State.setReg_pc (r : Reg) (v : Word) : (s.setReg r v).pc = s.pc := rfl
@[simp] theorem State.setReg_ex (r : Reg) (v : Word) : (s.setReg r v).ex = s.ex := rfl
@[simp] theorem State.setReg_ia (r : Reg) (v : Word) : (s.setReg r v).ia = s.ia := rfl
@[simp] theorem State.setReg_irqq (r : Reg) (v : Word) : (s.setReg r v).irqq = s.irqq := rfl
@[simp] theorem State.setReg_iaq (r : Reg) (v : Word) : (s.setReg r v).iaq = s.iaq := rfl
@[simp] theorem State.setReg_skip (r : Reg) (v : Word) : (s.setReg r v).skip = s.skip := rfl
@[simp] theorem State.setReg_running (r : Reg) (v : Word) : (s.setReg r v).running = s.running := rfl
@[simp] theorem State.setReg_cycles (r : Reg) (v : Word) : (s.setReg r v).cycles = s.cycles := rfl
@[simp] theorem State.setReg_mem (r : Reg) (v : Word) : (s.setReg r v).mem = s.mem := rfl
@[simp] theorem State.setReg_dev (r : Reg) (v : Word) : (s.setReg r v).dev = s.dev := rfl
@[simp] theorem State.setReg_devices (r : Reg) (v : Word) : (s.setReg r v).devices = s.devices := rfl
@[simp] theorem State.setReg_diags (r : Reg) (v : Word) : (s.setReg r v).diags = s.diags := rfl

@[simp] theorem State.setSp_x (v : Word) : (s.setSp v).x = s.x := rfl
@[simp] theorem State.setSp_sp (v : Word) : (s.setSp v).sp = v := rfl
@[simp] theorem State.setSp_pc (v : Word) : (s.setSp v).pc = s.pc := rfl
@[simp] theorem State.setSp_ex (v : Word) : (s.setSp v).ex = s.ex := rfl
@[simp] theorem State.setSp_ia (v : Word) : (s.setSp v).ia = s.ia := rfl
@[simp] theorem State.setSp_irqq (v : Word) : (s.setSp v).irqq = s.irqq := rfl
@[simp] theorem State.setSp_iaq (v : Word) : (s.setSp v).iaq = s.iaq := rfl
@[simp] theorem State.setSp_skip (v : Word) : (s.setSp v).skip = s.skip := rfl
@[simp] theorem State.setSp_running (v : Word) : (s.setSp v).running = s.running := rfl
@[simp] theorem State.setSp_cycles (v : Word) : (s.setSp v).cycles = s.cycles := rfl
@[simp] theorem State.setSp_mem (v : Word) : (s.setSp v).mem = s.mem := rfl
@[simp] theorem State.setSp_dev (v : Word) : (s.setSp v).dev = s.dev := rfl
@[simp] theorem State.setSp_devices (v : Word) : (s.setSp v).devices = s.devices := rfl
@[simp] theorem State.setSp_diags (v : Word) : (s.setSp v).diags = s.diags := rfl

@[simp] theorem State.setPc_x (v : Word) : (s.setPc v).x = s.x := rfl
@[simp] theorem State.setPc_sp (v : Word) : (s.setPc v).sp = s.sp := rfl
@[simp] theorem State.setPc_pc (v : Word) : (s.setPc v).pc = v := rfl
@[simp] theorem State.setPc_ex (v : Word) : (s.setPc v).ex = s.ex := rfl
@[simp] theorem State.setPc_ia (v : Word) : (s.setPc v).ia = s.ia := rfl
@[simp] theorem State.setPc_irqq (v : Word) : (s.setPc v).irqq = s.irqq := rfl
@[simp] theorem State.setPc_iaq (v : Word) : (s.setPc v).iaq = s.iaq := rfl
@[simp] theorem State.setPc_skip (v : Word) : (s.setPc v).skip = s.skip := rfl
@[simp] theorem State.setPc_running (v : Word) : (s.setPc v).running = s.running := rfl
@[simp] theorem State.setPc_cycles (v : Word) : (s.setPc v).cycles = s.cycles := rfl
@[simp] theorem State.setPc_mem (v : Word) : (s.setPc v).mem = s.mem := rfl
@[simp] theorem State.setPc_dev (v : Word) : (s.setPc v).dev = s.dev := rfl
@[simp] theorem State.setPc_devices (v : Word) : (s.setPc v).devices = s.devices := rfl
@[simp] theorem State.setPc_diags (v : Word) : (s.setPc v).diags = s.diags := rfl

@[simp] theorem State.setEx_x (v : Word) : (s.setEx v).x = s.x := rfl
@[simp] theorem State.setEx_sp (v : Word) : (s.setEx v).sp = s.sp := rfl
@[simp] theorem State.setEx_pc (v : Word) : (s.setEx v).pc = s.pc := rfl
@[simp] theorem State.setEx_ex (v : Word) : (s.setEx v).ex = v := rfl
@[simp] theorem State.setEx_ia (v : Word) : (s.setEx v).ia = s.ia := rfl
@[simp] theorem State.setEx_irqq (v : Word) : (s.setEx v).irqq = s.irqq := rfl
@[simp] theorem State.setEx_iaq (v : Word) : (s.setEx v).iaq = s.iaq := rfl
@[simp] theorem State.setEx_skip (v : Word) : (s.setEx v).skip = s.skip := rfl
@[simp] theorem State.setEx_running (v : Word) : (s.setEx v).running = s.running := rfl
@[simp] theorem State.setEx_cycles (v : Word) : (s.setEx v).cycles = s.cycles := rfl
@[simp] theorem State.setEx_mem (v : Word) : (s.setEx v).mem = s.mem := rfl
@[simp] theorem State.setEx_dev (v : Word) : (s.setEx v).dev = s.dev := rfl
@[simp] theorem State.setEx_devices (v : Word) : (s.setEx v).devices = s.devices := rfl
@[simp] theorem State.setEx_diags (v : Word) : (s.setEx v).diags = s.diags := rfl

@[simp] theorem State.setIa_x (v : Word) : (s.setIa v).x = s.x := rfl
@[simp] theorem State.setIa_sp (v : Word) : (s.setIa v).sp = s.sp := rfl
@[simp] theorem State.setIa_pc (v : Word) : (s.setIa v).pc = s.pc := rfl
@[simp] theorem State.setIa_ex (v : Word) : (s.setIa v).ex = s.ex := rfl
@[simp] theorem State.setIa_ia (v : Word) : (s.setIa v).ia = v := rfl
@[simp] theorem State.setIa_irqq (v : Word) : (s.setIa v).irqq = s.irqq := rfl
@[simp] theorem State.setIa_iaq (v : Word) : (s.setIa v).iaq = s.iaq := rfl
@[simp] theorem State.setIa_skip (v : Word) : (s.setIa v).skip = s.skip := rfl
@[simp] theorem State.setIa_running (v : Word) : (s.setIa v).running = s.running := rfl
@[simp] theorem State.setIa_cycles (v : Word) : (s.setIa v).cycles = s.cycles := rfl
@[simp] theorem State.setIa_mem (v : Word) : (s.setIa v).mem = s.mem := rfl
@[simp] theorem State.setIa_dev (v : Word) : (s.setIa v).dev = s.dev := rfl
@[simp] theorem State.setIa_devices (v : Word) : (s.setIa v).devices = s.devices := rfl
@[simp] theorem State.setIa_diags (v : Word) : (s.setIa v).diags = s.diags := rfl

@[simp] theorem State.setIaq_x (b : Bool) : (s.setIaq b).x = s.x := rfl
@[simp] theorem State.setIaq_sp (b : Bool) : (s.setIaq b).sp = s.sp := rfl
@[simp] theorem State.setIaq_pc (b : Bool) : (s.setIaq b).pc = s.pc := rfl
@[simp] theorem State.setIaq_ex (b : Bool) : (s.setIaq b).ex = s.ex := rfl
@[simp] theorem State.setIaq_ia (b : Bool) : (s.setIaq b).ia = s.ia := rfl
@[simp] theorem State.setIaq_irqq (b : Bool) : (s.setIaq b).irqq = s.irqq := rfl
@[simp] theorem State.setIaq_iaq (b : Bool) : (s.setIaq b).iaq = b := rfl
@[simp] theorem State.setIaq_skip (b : Bool) : (s.setIaq b).skip = s.skip := rfl
@[simp] theorem State.setIaq_running (b : Bool) : (s.setIaq b).running = s.running := rfl
@[simp] theorem State.setIaq_cycles (b : Bool) : (s.setIaq b).cycles = s.cycles := rfl
@[simp] theorem State.setIaq_mem (b : Bool) : (s.setIaq b).mem = s.mem := rfl
@[simp] theorem State.setIaq_dev (b : Bool) : (s.setIaq b).dev = s.dev := rfl
@[simp] theorem State.setIaq_devices (b : Bool) : (s.setIaq b).devices = s.devices := rfl
@[simp] theorem State.setIaq_diags (b : Bool) : (s.setIaq b).diags = s.diags := rfl

@[simp] theorem State.setSkip_x (b : Bool) : (s.setSkip b).x = s.x := rfl
@[simp] theorem State.setSkip_sp (b : Bool) : (s.setSkip b).sp = s.sp := rfl
@[simp] theorem State.setSkip_pc (b : Bool) : (s.setSkip b).pc = s.pc := rfl
@[simp] theorem State.setSkip_ex (b : Bool) : (s.setSkip b).ex = s.ex := rfl
@[simp] theorem State.setSkip_ia (b : Bool) : (s.setSkip b).ia = s.ia := rfl
@[simp] theorem State.setSkip_irqq (b : Bool) : (s.setSkip b).irqq = s.irqq := rfl
@[simp] theorem State.setSkip_iaq (b : Bool) : (s.setSkip b).iaq = s.iaq := rfl
@[simp] theorem State.setSkip_skip (b : Bool) : (s.setSkip b).skip = b := rfl
@[simp] theorem State.setSkip_running (b : Bool) : (s.setSkip b).running = s.running := rfl
@[simp] theorem State.setSkip_cycles (b : Bool) : (s.setSkip b).cycles = s.cycles := rfl
@[simp] theorem State.setSkip_mem (b : Bool) : (s.setSkip b).mem = s.mem := rfl
@[simp] theorem State.setSkip_dev (b : Bool) : (s.setSkip b).dev = s.dev := rfl
@[simp] theorem State.setSkip_devices (b : Bool) : (s.setSkip b).devices = s.devices := rfl
@[simp] theorem State.setSkip_diags (b : Bool) : (s.setSkip b).diags = s.diags := rfl

@[simp] theorem State.setRunning_x (b : Bool) : (s.setRunning b).x = s.x := rfl
@[simp] theorem State.setRunning_sp (b : Bool) : (s.setRunning b).sp = s.sp := rfl
@[simp] theorem State.setRunning_pc (b : Bool) : (s.setRunning b).pc = s.pc := rfl
@[simp] theorem State.setRunning_ex (b : Bool) : (s.setRunning b).ex = s.ex := rfl
@[simp] theorem State.setRunning_ia (b : Bool) : (s.setRunning b).ia = s.ia := rfl
@[simp] theorem State.setRunning_irqq (b : Bool) : (s.setRunning b).irqq = s.irqq := rfl
@[simp] theorem State.setRunning_iaq (b : Bool) : (s.setRunning b).iaq = s.iaq := rfl
@[simp] theorem State.setRunning_skip (b : Bool) : (s.setRunning b).skip = s.skip := rfl
@[simp] theorem State.setRunning_running (b : Bool) : (s.setRunning b).running = b := rfl
@[simp] theorem State.setRunning_cycles (b : Bool) : (s.setRunning b).cycles = s.cycles := rfl
@[simp] theorem State.setRunning_mem (b : Bool) : (s.setRunning b).mem = s.mem := rfl
@[simp] theorem State.setRunning_dev (b : Bool) : (s.setRunning b).dev = s.dev := rfl
@[simp] theorem State.setRunning_devices (b : Bool) : (s.setRunning b).devices = s.devices := rfl
@[simp] theorem State.setRunning_diags (b : Bool) : (s.setRunning b).diags = s.diags := rfl

@[simp] theorem State.setIrqq_x (q : List Word) : (s.setIrqq q).x = s.x := rfl
@[simp] theorem State.setIrqq_sp (q : List Word) : (s.setIrqq q).sp = s.sp := rfl
@[simp] theorem State.setIrqq_pc (q : List Word) : (s.setIrqq q).pc = s.pc := rfl
@[simp] theorem State.setIrqq_ex (q : List Word) : (s.setIrqq q).ex = s.ex := rfl
@[simp] theorem State.setIrqq_ia (q : List Word) : (s.setIrqq q).ia = s.ia := rfl
@[simp] theorem State.setIrqq_irqq (q : List Word) : (s.setIrqq q).irqq = q := rfl
@[simp] theorem State.setIrqq_iaq (q : List Word) : (s.setIrqq q).iaq = s.iaq := rfl
@[simp] theorem State.setIrqq_skip (q : List Word) : (s.setIrqq q).skip = s.skip := rfl
@[simp] theorem State.setIrqq_running (q : List Word) : (s.setIrqq q).running = s.running := rfl
@[simp] theorem State.setIrqq_cycles (q : List Word) : (s.setIrqq q).cycles = s.cycles := rfl
@[simp] theorem State.setIrqq_mem (q : List Word) : (s.setIrqq q).mem = s.mem := rfl
@[simp] theorem State.setIrqq_dev (q : List Word) : (s.setIrqq q).dev = s.dev := rfl
@[simp] theorem State.setIrqq_devices (q : List Word) : (s.setIrqq q).devices = s.devices := rfl
@[simp] theorem State.setIrqq_diags (q : List Word) : (s.setIrqq q).diags = s.diags := rfl

@[simp] theorem State.setMem_x (m : Memory) : (s.setMem m).x = s.x := rfl
@[simp] theorem State.setMem_sp (m : Memory) : (s.setMem m).sp = s.sp := rfl
@[simp] theorem State.setMem_pc (m : Memory) : (s.setMem m).pc = s.pc := rfl
@[simp] theorem State.setMem_ex (m : Memory) : (s.setMem m).ex = s.ex := rfl
@[simp] theorem State.setMem_ia (m : Memory) : (s.setMem m).ia = s.ia := rfl
@[simp] theorem State.setMem_irqq (m : Memory) : (s.setMem m).irqq = s.irqq := rfl
@[simp] theorem State.setMem_iaq (m : Memory) : (s.setMem m).iaq = s.iaq := rfl
@[simp] theorem State.setMem_skip (m : Memory) : (s.setMem m).skip = s.skip := rfl
@[simp] theorem State.setMem_running (m : Memory) : (s.setMem m).running = s.running := rfl
@[simp] theorem State.setMem_cycles (m : Memory) : (s.setMem m).cycles = s.cycles := rfl
@[simp] theorem State.setMem_mem (m : Memory) : (s.setMem m).mem = m := rfl
@[simp] theorem State.setMem_dev (m : Memory) : (s.setMem m).dev = s.dev := rfl
@[simp] theorem State.setMem_devices (m : Memory) : (s.setMem m).devices = s.devices := rfl
@[simp] theorem State.setMem_diags (m : Memory) : (s.setMem m).diags = s.diags := rfl

@[simp] theorem State.setDev_x (k : Nat) (d : DevState) : (s.setDev k d).x = s.x := rfl
@[simp] theorem State.setDev_sp (k : Nat) (d : DevState) : (s.setDev k d).sp = s.sp := rfl
@[simp] theorem State.setDev_pc (k : Nat) (d : DevState) : (s.setDev k d).pc = s.pc := rfl
@[simp] theorem State.setDev_ex (k : Nat) (d : DevState) : (s.setDev k d).ex = s.ex := rfl
@[simp] theorem State.setDev_ia (k : Nat) (d : DevState) : (s.setDev k d).ia = s.ia := rfl
@[simp] theorem State.setDev_irqq (k : Nat) (d : DevState) : (s.setDev k d).irqq = s.irqq := rfl
@[simp] theorem State.setDev_iaq (k : Nat) (d : DevState) : (s.setDev k d).iaq = s.iaq := rfl
@[simp] theorem State.setDev_skip (k : Nat) (d : DevState) : (s.setDev k d).skip = s.skip := rfl
@[simp] theorem State.setDev_running (k : Nat) (d : DevState) : (s.setDev k d).running = s.running := rfl
@[simp] theorem State.setDev_cycles (k : Nat) (d : DevState) : (s.setDev k d).cycles = s.cycles := rfl
@[simp] theorem State.setDev_mem (k : Nat) (d : DevState) : (s.setDev k d).mem = s.mem := rfl
@[simp] theorem State.setDev_dev (k : Nat) (d : DevState) : (s.setDev k d).dev = s.dev.set k d := rfl
@[simp] theorem State.setDev_devices (k : Nat) (d : DevState) : (s.setDev k d).devices = s.devices := rfl
@[simp] theorem State.setDev_diags (k : Nat) (d : DevState) : (s.setDev k d).diags = s.diags := rfl

@[simp] theorem State.countCycle_x : s.countCycle.x = s.x := rfl
@[simp] theorem State.countCycle_sp : s.countCycle.sp = s.sp := rfl
@[simp] theorem State.countCycle_pc : s.countCycle.pc = s.pc := rfl
@[simp] theorem State.countCycle_ex : s.countCycle.ex = s.ex := rfl
@[simp] theorem State.countCycle_ia : s.countCycle.ia = s.ia := rfl
@[simp] theorem State.countCycle_irqq : s.countCycle.irqq = s.irqq := rfl
@[simp] theorem State.countCycle_iaq : s.countCycle.iaq = s.iaq := rfl
@[simp] theorem State.countCycle_skip : s.countCycle.skip = s.skip := rfl
@[simp] theorem State.countCycle_running : s.countCycle.running = s.running := rfl
@[simp] theorem State.countCycle_cycles : s.countCycle.cycles = s.cycles + 1 := rfl
@[simp] theorem State.countCycle_mem : s.countCycle.mem = s.mem := rfl
@[simp] theorem State.countCycle_dev : s.countCycle.dev = s.dev := rfl
@[simp] theorem State.countCycle_devices : s.countCycle.devices = s.devices := rfl
@[simp] theorem State.countCycle_diags : s.countCycle.diags = s.diags := rfl

@[simp] theorem State.addDiag_x (d : Diag) : (s.addDiag d).x = s.x := rfl
@[simp] theorem State.addDiag_sp (d : Diag) : (s.addDiag d).sp = s.sp := rfl
@[simp] theorem State.addDiag_pc (d : Diag) : (s.addDiag d).pc = s.pc := rfl
@[simp] theorem State.addDiag_ex (d : Diag) : (s.addDiag d).ex = s.ex := rfl
@[simp] theorem State.addDiag_ia (d : Diag) : (s.addDiag d).ia = s.ia := rfl
@[simp] theorem State.addDiag_irqq (d : Diag) : (s.addDiag d).irqq = s.irqq := rfl
@[simp] theorem State.addDiag_iaq (d : Diag) : (s.addDiag d).iaq = s.iaq := rfl
@[simp] theorem State.addDiag_skip (d : Diag) : (s.addDiag d).skip = s.skip := rfl
@[simp] theorem State.addDiag_running (d : Diag) : (s.addDiag d).running = s.running := rfl
@[simp] theorem State.addDiag_cycles (d : Diag) : (s.addDiag d).cycles = s.cycles := rfl
@[simp] theorem State.addDiag_mem (d : Diag) : (s.addDiag d).mem = s.mem := rfl
@[simp] theorem State.addDiag_dev (d : Diag) : (s.addDiag d).dev = s.dev := rfl
@[simp] theorem State.addDiag_devices (d : Diag) : (s.addDiag d).devices = s.devices := rfl
@[simp] theorem State.addDiag_diags (d : Diag) : (s.addDiag d).diags = s.diags ++ [d] := rfl

@[simp] theorem State.setRegFile_x (f : RegFile) : (s.setRegFile f).x = f.x := rfl
@[simp] theorem State.setRegFile_sp (f : RegFile) : (s.setRegFile f).sp = f.sp := rfl
@[simp] theorem State.setRegFile_pc (f : RegFile) : (s.setRegFile f).pc = f.pc := rfl
@[simp] theorem State.setRegFile_ex (f : RegFile) : (s.setRegFile f).ex = f.ex := rfl
@[simp] theorem State.setRegFile_ia (f : RegFile) : (s.setRegFile f).ia = s.ia := rfl
@[simp] theorem State.setRegFile_irqq (f : RegFile) : (s.setRegFile f).irqq = s.irqq := rfl
@[simp] theorem State.setRegFile_iaq (f : RegFile) : (s.setRegFile f).iaq = s.iaq := rfl
@[simp] theorem State.setRegFile_skip (f : RegFile) : (s.setRegFile f).skip = s.skip := rfl
@[simp] theorem State.setRegFile_running (f : RegFile) : (s.setRegFile f).running = s.running := rfl
@[simp] theorem State.setRegFile_cycles (f : RegFile) : (s.setRegFile f).cycles = s.cycles := rfl
@[simp] theorem State.setRegFile_mem (f : RegFile) : (s.setRegFile f).mem = s.mem := rfl
@[simp] theorem State.setRegFile_dev (f : RegFile) : (s.setRegFile f).dev = s.dev := rfl
@[simp] theorem State.setRegFile_devices (f : RegFile) : (s.setRegFile f).devices = s.devices := rfl
@[simp] theorem State.setRegFile_diags (f : RegFile) : (s.setRegFile f).diags = s.diags := rfl

end Machine

end Sys2Proof
end

