-- ==== Sys2Proof/Laws/Ops.lean ====
section
/-! SUPPORT. For each shared operation, once, everything it can do: an inversion lemma where it answers a next
state, and its value where no device watches the address. -/

namespace Sys2Proof.Machine

/-! ### Outcomes -/

theorem bind_eq_ok {ε α β : Type} {x : Except ε α} {f : α → Except ε β} {b : β} :
    (x >>= f) = .ok b ↔ ∃ a, x = .ok a ∧ f a = .ok b := by
  cases x <;> simp [bind, Except.bind]

@[simp] theorem ok_bind {ε α β : Type} (a : α) (f : α → Except ε β) : ((Except.ok a : Except ε α) >>= f) = f a := rfl

@[simp] theorem error_bind {ε α β : Type} (e : ε) (f : α → Except ε β) :
    ((Except.error e : Except ε α) >>= f) = .error e := rfl

@[simp] theorem finish_ok (s : State) : finish (.ok s) = .next s := rfl

@[simp] theorem finish_error (f : Fault) : finish (.error f) = .fault f := rfl

theorem finish_eq_next {e : Except Fault State} {t : State} : finish e = .next t ↔ e = .ok t := by
  cases e <;> simp [finish]

/-! ### What the environment may change -/

namespace State

theorem EnvStep.refl (s : State) : EnvStep s s := ⟨rfl, rfl, rfl, rfl, rfl, List.prefix_refl _, rfl, rfl, rfl, rfl, rfl, rfl⟩

theorem EnvStep.trans {s t u : State} (h : EnvStep s t) (k : EnvStep t u) : EnvStep s u :=
  ⟨k.x.trans h.x, k.sp.trans h.sp, k.pc.trans h.pc, k.ex.trans h.ex, k.ia.trans h.ia, h.irqq.trans k.irqq,
    k.iaq.trans h.iaq, k.skip.trans h.skip, k.running.trans h.running, k.cycles.trans h.cycles,
    k.devices.trans h.devices, k.diags.trans h.diags⟩

/-- What every operation keeps, and so what the invariant rests on. -/
structure Keeps (s t : State) : Prop where
  wf      : s.mem.wf = true → t.mem.wf = true
  queue   : s.irqq.length ≤ Config.irqQueueMax → t.irqq.length ≤ Config.irqQueueMax
  dev     : t.dev.length = s.dev.length
  devices : t.devices = s.devices

theorem Keeps.refl (s : State) : Keeps s s := ⟨id, id, rfl, rfl⟩

theorem Keeps.trans {s t u : State} (h : Keeps s t) (k : Keeps t u) : Keeps s u :=
  ⟨k.wf ∘ h.wf, k.queue ∘ h.queue, k.dev.trans h.dev, k.devices.trans h.devices⟩

theorem Keeps.inv {s t : State} (h : Keeps s t) (hs : s.inv = true) : t.inv = true := by
  simp only [State.inv, Bool.and_eq_true, decide_eq_true_eq] at hs ⊢
  exact ⟨⟨⟨⟨h.wf hs.1.1.1.1, h.queue hs.1.1.1.2⟩, h.devices ▸ hs.1.1.2⟩, h.devices ▸ hs.1.2⟩,
    by rw [h.dev, h.devices]; exact hs.2⟩

/-- An update that leaves memory, queue and registry alone. -/
theorem Keeps.of_eq {s t : State} (hm : t.mem = s.mem) (hq : t.irqq = s.irqq) (hd : t.dev = s.dev)
    (hv : t.devices = s.devices) : Keeps s t := ⟨by rw [hm]; exact id, by rw [hq]; exact id, by rw [hd], hv⟩

theorem Keeps.write (s : State) (a v : Word) : Keeps s (s.setMem (s.mem.write a v)) :=
  ⟨Memory.wf_write a v, id, rfl, rfl⟩

end State

open State

/-! ### The interrupt queue -/

theorem irq_eq_ok {m : Word} {s t : State} :
    irq m s = .ok t ↔ s.irqq.length < Config.irqQueueMax ∧ t = s.setIrqq (s.irqq ++ [m]) := by
  unfold irq
  split
  · simp; omega
  · simp only [Except.ok.injEq]
    constructor
    · rintro rfl; exact ⟨by omega, rfl⟩
    · rintro ⟨_, rfl⟩; rfl

theorem irqAll_eq_ok {ms : List Word} {s t : State} :
    irqAll ms s = .ok t ↔ (ms = [] ∨ s.irqq.length + ms.length ≤ Config.irqQueueMax) ∧
      t = s.setIrqq (s.irqq ++ ms) := by
  induction ms generalizing s with
  | nil => simp [irqAll, State.setIrqq, eq_comm]
  | cons m ms ih =>
    simp only [irqAll, bind_eq_ok, irq_eq_ok, ih]
    constructor
    · rintro ⟨_, ⟨h, rfl⟩, h', rfl⟩
      refine ⟨.inr ?_, by simp [State.setIrqq]⟩
      rcases h' with rfl | h'
      · simpa using h
      · simp at h' ⊢; omega
    · rintro ⟨h, rfl⟩
      simp only [List.cons_ne_nil, false_or, List.length_cons] at h
      exact ⟨_, ⟨by omega, rfl⟩, .inr (by simp; omega), by simp [State.setIrqq]⟩

/-! ### Notifications -/

theorem react_eq_ok {k : Nat} {r : Reaction} {s t : State} :
    react k r s = .ok t ↔ (r.irqs = [] ∨ s.irqq.length + r.irqs.length ≤ Config.irqQueueMax) ∧
      t = ((s.setDev k r.dev).setMem (s.mem.writeAll r.writes)).setIrqq (s.irqq ++ r.irqs) :=
  irqAll_eq_ok

theorem react_env {k : Nat} {r : Reaction} {s t : State} (h : react k r s = .ok t) : EnvStep s t ∧ Keeps s t := by
  obtain ⟨hq, rfl⟩ := react_eq_ok.1 h
  refine ⟨⟨rfl, rfl, rfl, rfl, rfl, List.prefix_append _ _, rfl, rfl, rfl, rfl, rfl, rfl⟩,
    ⟨Memory.wf_writeAll _, fun hs => ?_, by simp, rfl⟩⟩
  rcases hq with hq | hq
  · simpa [hq] using hs
  · simpa using hq

theorem notifyOne_env {acc : Access} {a v : Word} {k : Nat} {s t : State} (h : notifyOne acc a v k s = .ok t) :
    EnvStep s t ∧ Keeps s t := by
  unfold notifyOne at h
  split at h
  · cases h; exact ⟨.refl s, .refl s⟩
  · split at h
    · cases h; exact ⟨.refl s, .refl s⟩
    · exact react_env h

theorem notify_env {acc : Access} {a v : Word} {ks : List Nat} {s t : State} (h : notify acc a v ks s = .ok t) :
    EnvStep s t ∧ Keeps s t := by
  induction ks generalizing s with
  | nil => cases h; exact ⟨.refl _, .refl _⟩
  | cons k ks ih =>
    obtain ⟨u, hu, ht⟩ := bind_eq_ok.1 h
    exact ⟨(notifyOne_env hu).1.trans (ih ht).1, (notifyOne_env hu).2.trans (ih ht).2⟩

theorem notifyOne_quiet {acc : Access} {a v : Word} {k : Nat} {s : State} (h : s.quiet a = true) :
    notifyOne acc a v k s = .ok s := by
  unfold notifyOne
  split
  · rfl
  · rename_i d hd
    have : d.claims a = false := by simpa using List.all_eq_true.1 h d (List.mem_of_getElem? hd)
    simp [Device.reaction, this]

theorem notify_quiet {acc : Access} {a v : Word} {ks : List Nat} {s : State} (h : s.quiet a = true) :
    notify acc a v ks s = .ok s := by
  induction ks with
  | nil => rfl
  | cons k ks ih => simp [notify, notifyOne_quiet h, ih]

/-! ### The memory primitives -/

theorem memRead_ok {a : Word} {s : State} {r : Word × State} (h : memRead a s = .ok r) :
    r.1 = s.mem.read a ∧ EnvStep s r.2 ∧ Keeps s r.2 := by
  obtain ⟨t, ht, hr⟩ := bind_eq_ok.1 h
  cases hr
  exact ⟨rfl, notify_env ht⟩

theorem memRead_quiet {a : Word} {s : State} (h : s.quiet a = true) : memRead a s = .ok (s.mem.read a, s) := by
  simp [memRead, notifyAll, notify_quiet h]

theorem memWrite_ok {a v : Word} {s t : State} (h : memWrite a v s = .ok t) :
    EnvStep (s.setMem (s.mem.write a v)) t ∧ Keeps s t :=
  ⟨(notify_env h).1, (Keeps.write s a v).trans (notify_env h).2⟩

theorem memWrite_quiet {a v : Word} {s : State} (h : s.quiet a = true) :
    memWrite a v s = .ok (s.setMem (s.mem.write a v)) := notify_quiet (s := s.setMem _) h

theorem nextWord_ok {s : State} {r : Word × State} (h : nextWord s = .ok r) :
    r.1 = s.mem.read s.pc ∧ EnvStep (s.setPc (s.pc + 1)) r.2 ∧ Keeps s r.2 := by
  obtain ⟨q, hq, hr⟩ := bind_eq_ok.1 h
  cases hr
  obtain ⟨hv, he, hk⟩ := memRead_ok hq
  exact ⟨hv, ⟨he.x, he.sp, by simp [he.pc], he.ex, he.ia, he.irqq, he.iaq, he.skip, he.running, he.cycles,
    he.devices, he.diags⟩, hk.trans (.of_eq rfl rfl rfl rfl)⟩

theorem nextWord_quiet {s : State} (h : s.quiet s.pc = true) :
    nextWord s = .ok (s.mem.read s.pc, s.setPc (s.pc + 1)) := by
  simp [nextWord, memRead_quiet h]

/-- Fetching `n` words leaves PC `n` further on and changes otherwise what the environment may change. -/
theorem nextWords_ok {n : Nat} {s : State} {r : List Word × State} (h : nextWords n s = .ok r) :
    r.1.length = n ∧ EnvStep (s.setPc (s.pc + BitVec.ofNat 16 n)) r.2 ∧ Keeps s r.2 := by
  induction n generalizing s r with
  | zero => cases h; exact ⟨rfl, by simp; exact EnvStep.refl s, .refl s⟩
  | succ n ih =>
    obtain ⟨q, hq, h⟩ := bind_eq_ok.1 h
    obtain ⟨qs, hqs, h⟩ := bind_eq_ok.1 h
    cases h
    obtain ⟨-, he, hk⟩ := nextWord_ok hq
    obtain ⟨hl, he', hk'⟩ := ih hqs
    have hpc : q.2.pc + BitVec.ofNat 16 n = s.pc + BitVec.ofNat 16 (n + 1) := by
      rw [he.pc, State.setPc_pc, BitVec.ofNat_add, BitVec.add_assoc, BitVec.add_comm (BitVec.ofNat 16 n)]
      rfl
    exact ⟨by simp [hl], ⟨he'.x.trans he.x, he'.sp.trans he.sp, he'.pc.trans hpc, he'.ex.trans he.ex,
      he'.ia.trans he.ia, he.irqq.trans he'.irqq, he'.iaq.trans he.iaq, he'.skip.trans he.skip,
      he'.running.trans he.running, he'.cycles.trans he.cycles, he'.devices.trans he.devices,
      he'.diags.trans he.diags⟩, hk.trans hk'⟩

/-- ... and reads them in order, where no device watches them. -/
theorem nextWords_quiet (n : Nat) (s : State)
    (h : ∀ k, k < n → s.quiet (s.pc + BitVec.ofNat 16 k) = true) :
    nextWords n s = .ok ((List.range n).map (fun k => s.mem.read (s.pc + BitVec.ofNat 16 k)),
      s.setPc (s.pc + BitVec.ofNat 16 n)) := by
  induction n generalizing s with
  | zero => simp [nextWords]; rfl
  | succ n ih =>
    have hs : ∀ k, s.pc + 1 + BitVec.ofNat 16 k = s.pc + BitVec.ofNat 16 (k + 1) := by
      intro k
      rw [BitVec.ofNat_add, BitVec.add_assoc, BitVec.add_comm 1]
      rfl
    have h0 : s.quiet s.pc = true := by simpa using h 0 (by omega)
    rw [nextWords, nextWord_quiet h0, ok_bind, ih (s.setPc (s.pc + 1))]
    · simp only [ok_bind, List.range_succ_eq_map, List.map_cons, List.map_map, State.setPc_pc, hs, State.setPc_mem]
      simp [Function.comp_def]
      rfl
    · intro k hk
      rw [State.setPc_pc, hs]
      exact h (k + 1) (by omega)

/-! ### The stack -/

theorem push_ok {v : Word} {s t : State} (h : push v s = .ok t) :
    EnvStep ((s.setSp (s.sp - 1)).setMem (s.mem.write (s.sp - 1) v)) t ∧ Keeps s t :=
  ⟨(memWrite_ok h).1, Keeps.trans (t := s.setSp (s.sp - 1)) (.of_eq rfl rfl rfl rfl) (memWrite_ok h).2⟩

theorem push_quiet {v : Word} {s : State} (h : s.quiet (s.sp - 1) = true) :
    push v s = .ok ((s.setSp (s.sp - 1)).setMem (s.mem.write (s.sp - 1) v)) :=
  memWrite_quiet (s := s.setSp _) h

theorem pop_ok {s : State} {r : Word × State} (h : pop s = .ok r) :
    r.1 = s.mem.read s.sp ∧ EnvStep (s.setSp (s.sp + 1)) r.2 ∧ Keeps s r.2 := by
  obtain ⟨q, hq, hr⟩ := bind_eq_ok.1 h
  cases hr
  obtain ⟨hv, he, hk⟩ := memRead_ok hq
  exact ⟨hv, ⟨he.x, by simp [he.sp], he.pc, he.ex, he.ia, he.irqq, he.iaq, he.skip, he.running, he.cycles,
    he.devices, he.diags⟩, hk.trans (.of_eq rfl rfl rfl rfl)⟩

theorem pop_quiet {s : State} (h : s.quiet s.sp = true) : pop s = .ok (s.mem.read s.sp, s.setSp (s.sp + 1)) := by
  simp [pop, memRead_quiet h]

/-! ### Interrupt entry, delivery and return -/

/-- Entry leaves, but for what the devices do meanwhile: queueing on, SP down by two, PC at IA, the message in A. -/
theorem enterInterrupt_ok {msg : Word} {s t : State} (h : enterInterrupt msg s = .ok t) :
    t.x = s.x.set .A msg ∧ t.sp = s.sp - 1 - 1 ∧ t.pc = s.ia ∧ t.ex = s.ex ∧ t.ia = s.ia ∧ t.iaq = true ∧
      t.skip = s.skip ∧ t.running = s.running ∧ t.cycles = s.cycles ∧ t.diags = s.diags ∧ s.irqq <+: t.irqq ∧
      Keeps s t := by
  obtain ⟨u, hu, h⟩ := bind_eq_ok.1 h
  obtain ⟨w, hw, h⟩ := bind_eq_ok.1 h
  cases h
  obtain ⟨eu, ku⟩ := push_ok hu
  obtain ⟨ew, kw⟩ := push_ok hw
  refine ⟨by simp [ew.x, eu.x], by simp [ew.sp, eu.sp], by simp [ew.ia, eu.ia], by simp [ew.ex, eu.ex],
    by simp [ew.ia, eu.ia], by simp [ew.iaq, eu.iaq], by simp [ew.skip, eu.skip], by simp [ew.running, eu.running],
    by simp [ew.cycles, eu.cycles], by simp [ew.diags, eu.diags], ?_, ?_⟩
  · exact List.IsPrefix.trans eu.irqq ew.irqq
  · exact Keeps.trans (t := s.setIaq true) (.of_eq rfl rfl rfl rfl)
      (ku.trans (kw.trans (.of_eq rfl rfl rfl rfl)))

/-- Delivery either leaves the state as it is, or drops the oldest message, or enters the handler with it. -/
theorem deliverInterrupt_cases (s : State) :
    (deliverInterrupt s = .ok s ∧ (s.iaq = true ∨ s.irqq = [])) ∨
      ∃ msg rest, s.iaq = false ∧ s.irqq = msg :: rest ∧
        ((s.ia = 0 ∧ deliverInterrupt s = .ok (s.setIrqq rest)) ∨
          (s.ia ≠ 0 ∧ deliverInterrupt s = enterInterrupt msg (s.setIrqq rest))) := by
  unfold deliverInterrupt
  cases hi : s.iaq <;> cases hq : s.irqq <;> simp
  by_cases h : s.ia = 0#16 <;> simp [h]

theorem deliverInterrupt_keeps {s t : State} (h : deliverInterrupt s = .ok t) : Keeps s t := by
  rcases deliverInterrupt_cases s with ⟨e, -⟩ | ⟨msg, rest, -, hq, ⟨-, e⟩ | ⟨-, e⟩⟩ <;> rw [e] at h
  · cases h; exact .refl s
  · cases h
    exact ⟨id, fun hs => by rw [hq] at hs; simp at hs ⊢; omega, rfl, rfl⟩
  · have k := (enterInterrupt_ok h).2.2.2.2.2.2.2.2.2.2.2
    exact Keeps.trans (t := s.setIrqq rest) ⟨id, fun hs => by rw [hq] at hs; simp at hs ⊢; omega, rfl, rfl⟩ k

theorem returnFromInterrupt_ok {s t : State} (h : returnFromInterrupt s = .ok t) :
    t.x = s.x.set .A (s.mem.read s.sp) ∧ t.sp = s.sp + 1 + 1 ∧ t.ex = s.ex ∧ t.ia = s.ia ∧ t.iaq = false ∧
      t.skip = s.skip ∧ t.running = s.running ∧ t.cycles = s.cycles ∧ t.diags = s.diags ∧ s.irqq <+: t.irqq ∧
      Keeps s t := by
  obtain ⟨u, hu, h⟩ := bind_eq_ok.1 h
  obtain ⟨w, hw, h⟩ := bind_eq_ok.1 h
  cases h
  obtain ⟨vu, eu, ku⟩ := pop_ok hu
  obtain ⟨-, ew, kw⟩ := pop_ok hw
  refine ⟨by simp [ew.x, eu.x, vu], by simp [ew.sp, eu.sp], by simp [ew.ex, eu.ex], by simp [ew.ia, eu.ia],
    by simp [ew.iaq, eu.iaq], by simp [ew.skip, eu.skip], by simp [ew.running, eu.running],
    by simp [ew.cycles, eu.cycles], by simp [ew.diags, eu.diags], ?_, ?_⟩
  · exact List.IsPrefix.trans eu.irqq ew.irqq
  · exact Keeps.trans (t := s.setIaq false) (.of_eq rfl rfl rfl rfl)
      (ku.trans (Keeps.trans (t := u.2.setReg .A u.1) (.of_eq rfl rfl rfl rfl) (kw.trans (.of_eq rfl rfl rfl rfl))))

theorem returnFromInterrupt_quiet {s : State} (h : s.quiet s.sp = true) (h' : s.quiet (s.sp + 1) = true) :
    returnFromInterrupt s = .ok ((((s.setIaq false).setReg .A (s.mem.read s.sp)).setSp (s.sp + 1 + 1)).setPc
      (s.mem.read (s.sp + 1))) := by
  have h1 : (s.setIaq false).quiet (s.setIaq false).sp = true := h
  have h2 : (((s.setIaq false).setSp (s.sp + 1)).setReg .A (s.mem.read s.sp)).quiet (s.sp + 1) = true := h'
  simp only [returnFromInterrupt, pop_quiet h1, ok_bind, State.setIaq_sp, State.setIaq_mem]
  rw [pop_quiet (s := ((s.setIaq false).setSp (s.sp + 1)).setReg .A (s.mem.read s.sp)) h2]
  rfl

/-! ### The HWI dispatch -/

/-- What a dispatch leaves alone, whatever the device does (R218). -/
theorem dispatchDevice_ok {k : Nat} {d : Device} {s t : State} (h : dispatchDevice k d s = .ok t) :
    t.ia = s.ia ∧ t.iaq = s.iaq ∧ t.skip = s.skip ∧ t.running = s.running ∧ t.cycles = s.cycles ∧
      t.diags = s.diags ∧ s.irqq <+: t.irqq ∧ Keeps s t := by
  unfold dispatchDevice at h
  split at h
  · cases h; exact ⟨rfl, rfl, rfl, rfl, rfl, rfl, List.prefix_refl _, .refl s⟩
  · obtain ⟨hq, rfl⟩ := irqAll_eq_ok.1 h
    refine ⟨rfl, rfl, rfl, rfl, rfl, rfl, List.prefix_append _ _, Memory.wf_writeAll _, fun hs => ?_, by simp, rfl⟩
    rcases hq with hq | hq
    · rw [hq]; simpa using hs
    · simpa using hq

end Sys2Proof.Machine
end

