-- ==== Sys2Proof/Laws/Operands.lean ====
section
/-! SUPPORT. The resolver and the locations: what they can do, and their values where no device watches. -/

namespace Sys2Proof.Machine

open State

@[simp] theorem State.setSp_self (s : State) : s.setSp s.sp = s := rfl

/-- Resolution changes nothing but SP (R106). -/
theorem resolve_state (pos : Pos) (o : Operand) (s : State) :
    (resolve pos o s).2 = s.setSp (s.sp + spMove pos o) := by
  cases o <;> cases pos <;> simp [resolve, spMove, BitVec.sub_eq_add_neg]

theorem locate_state (b a : Operand) (s : State) :
    (locate b a s).st = s.setSp (s.sp + spMove .asA a + spMove .asB b) := by
  simp only [locate, resolve_state]
  rfl

theorem readLoc_ok {l : Loc} {s : State} {r : Word × State} (h : readLoc l s = .ok r) :
    r.1 = peekLoc l s ∧ EnvStep s r.2 ∧ Keeps s r.2 := by
  cases l
  case mem a => exact memRead_ok h
  all_goals
    cases h
    exact ⟨rfl, .refl s, .refl s⟩

theorem readLoc_quiet {l : Loc} {s : State} (h : s.quietLoc l = true) : readLoc l s = .ok (peekLoc l s, s) := by
  cases l
  case mem a => exact memRead_quiet h
  all_goals rfl

theorem pokeLoc_keeps (l : Loc) (v : Word) (s : State) : Keeps s (pokeLoc l v s) := by
  cases l
  case mem a => exact Keeps.write s a v
  all_goals exact .of_eq rfl rfl rfl rfl

theorem writeLoc_ok {l : Loc} {v : Word} {s t : State} (h : writeLoc l v s = .ok t) :
    EnvStep (pokeLoc l v s) t ∧ Keeps s t := by
  cases l
  case mem a => exact memWrite_ok h
  all_goals
    cases h
    exact ⟨.refl _, .of_eq rfl rfl rfl rfl⟩

theorem writeLoc_quiet {l : Loc} {v : Word} {s : State} (h : s.quietLoc l = true) :
    writeLoc l v s = .ok (pokeLoc l v s) := by
  cases l
  case mem a => exact memWrite_quiet h
  all_goals rfl

/-- Whether an access is watched depends on the registry alone. -/
theorem quietLoc_of_devices {s t : State} (h : t.devices = s.devices) (l : Loc) : t.quietLoc l = s.quietLoc l := by
  cases l <;> simp [State.quietLoc, State.quiet, h]

theorem operands_ok {b a : Operand} {s : State} {o : Basic} (h : operands b a s = .ok o) :
    o.la = (locate b a s).la ∧ o.lb = (locate b a s).lb ∧ o.va = peekLoc (locate b a s).la (locate b a s).st ∧
      EnvStep (s.setSp (s.sp + spMove .asA a + spMove .asB b)) o.st ∧ Keeps s o.st := by
  obtain ⟨ra, ha, h⟩ := bind_eq_ok.1 h
  obtain ⟨rb, hb, h⟩ := bind_eq_ok.1 h
  cases h
  obtain ⟨va, ea, ka⟩ := readLoc_ok ha
  obtain ⟨-, eb, kb⟩ := readLoc_ok hb
  rw [locate_state] at ea ka
  exact ⟨rfl, rfl, va, ea.trans eb,
    Keeps.trans (t := s.setSp (s.sp + spMove .asA a + spMove .asB b)) (.of_eq rfl rfl rfl rfl) (ka.trans kb)⟩

theorem operands_quiet {b a : Operand} {s : State} (ha : s.quietLoc (locate b a s).la = true)
    (hb : s.quietLoc (locate b a s).lb = true) :
    operands b a s = .ok ⟨(locate b a s).la, (locate b a s).lb, peekLoc (locate b a s).la (locate b a s).st,
      peekLoc (locate b a s).lb (locate b a s).st, (locate b a s).st⟩ := by
  have hd : (locate b a s).st.devices = s.devices := by rw [locate_state]; rfl
  rw [← quietLoc_of_devices hd] at ha hb
  simp [operands, readLoc_quiet ha, readLoc_quiet hb]

theorem operand_ok {a : Operand} {s : State} {o : Single} (h : operand a s = .ok o) :
    o.la = (resolve .asA a s).1 ∧ o.va = peekLoc (resolve .asA a s).1 (resolve .asA a s).2 ∧
      EnvStep (s.setSp (s.sp + spMove .asA a)) o.st ∧ Keeps s o.st := by
  obtain ⟨ra, ha, h⟩ := bind_eq_ok.1 h
  cases h
  obtain ⟨va, ea, ka⟩ := readLoc_ok ha
  rw [resolve_state] at ea ka
  exact ⟨rfl, va, ea, Keeps.trans (t := s.setSp (s.sp + spMove .asA a)) (.of_eq rfl rfl rfl rfl) ka⟩

theorem operand_quiet {a : Operand} {s : State} (h : s.quietLoc (resolve .asA a s).1 = true) :
    operand a s = .ok ⟨(resolve .asA a s).1, peekLoc (resolve .asA a s).1 (resolve .asA a s).2,
      (resolve .asA a s).2⟩ := by
  have hd : (resolve .asA a s).2.devices = s.devices := by rw [resolve_state]; rfl
  rw [← quietLoc_of_devices hd] at h
  simp [operand, readLoc_quiet h]

/-- A location other than `l` keeps its content under a write to `l`: registers. -/
theorem pokeLoc_get_ne {l : Loc} {r : Reg} (v : Word) (s : State) (h : l ≠ .reg r) :
    (pokeLoc l v s).x.get r = s.x.get r := by
  cases l <;> simp only [pokeLoc, State.setSp_x, State.setPc_x, State.setEx_x, State.setMem_x, State.setReg_x]
  case reg q => exact Regs.get_set_ne _ _ (fun e => h (e ▸ rfl))

/-- ... and memory. -/
theorem pokeLoc_read_ne {l : Loc} {addr : Word} (v : Word) (s : State) (h : l ≠ .mem addr) :
    (pokeLoc l v s).mem.read addr = s.mem.read addr := by
  cases l <;> simp only [pokeLoc, State.setSp_mem, State.setPc_mem, State.setEx_mem, State.setMem_mem, State.setReg_mem]
  case mem q => exact Memory.read_write_ne _ _ (fun e => h (e ▸ rfl))

/-- What a write to a location never changes. -/
theorem pokeLoc_other (l : Loc) (v : Word) (s : State) :
    (l ≠ .sp → (pokeLoc l v s).sp = s.sp) ∧ (l ≠ .pc → (pokeLoc l v s).pc = s.pc) ∧
      (l ≠ .ex → (pokeLoc l v s).ex = s.ex) ∧ (pokeLoc l v s).ia = s.ia ∧ (pokeLoc l v s).irqq = s.irqq ∧
      (pokeLoc l v s).iaq = s.iaq ∧ (pokeLoc l v s).skip = s.skip ∧ (pokeLoc l v s).running = s.running ∧
      (pokeLoc l v s).cycles = s.cycles ∧ (pokeLoc l v s).dev = s.dev ∧ (pokeLoc l v s).devices = s.devices ∧
      (pokeLoc l v s).diags = s.diags := by
  cases l <;> simp [pokeLoc]

end Sys2Proof.Machine
end

