-- ==== Sys2Proof/Laws/PerInstr.lean ====
section
/-! SUPPORT. Statements made once per constructor of Instr. -/

namespace Sys2Proof.Laws

/-- "opcode field low 5 bits are zero iff this is a special-form instruction" (R72), of one instruction. -/
def FormField.Statement (i : Instr) : Prop := fieldO i.firstWord = 0 ↔ i.opB = none

theorem formField_basic {i : Instr} {b : Operand} (h : i.opB = some b) (h0 : i.opcode ≠ 0) :
    FormField.Statement i := by
  have := i.opcode_lt
  unfold FormField.Statement
  simp only [Instr.firstWord, h, fieldO, BitVec.toNat_ofNat, reduceCtorEq, iff_false]
  omega

theorem formField_special {i : Instr} (h : i.opB = none) : FormField.Statement i := by
  unfold FormField.Statement
  simp only [Instr.firstWord, h, fieldO, BitVec.toNat_ofNat, iff_true]
  omega

theorem FormField.set (b a : Operand) : FormField.Statement (.set b a) := formField_basic rfl (by simp [Instr.opcode])

theorem FormField.add (b a : Operand) : FormField.Statement (.add b a) := formField_basic rfl (by simp [Instr.opcode])

theorem FormField.sub (b a : Operand) : FormField.Statement (.sub b a) := formField_basic rfl (by simp [Instr.opcode])

theorem FormField.mul (b a : Operand) : FormField.Statement (.mul b a) := formField_basic rfl (by simp [Instr.opcode])

theorem FormField.mli (b a : Operand) : FormField.Statement (.mli b a) := formField_basic rfl (by simp [Instr.opcode])

theorem FormField.div (b a : Operand) : FormField.Statement (.div b a) := formField_basic rfl (by simp [Instr.opcode])

theorem FormField.dvi (b a : Operand) : FormField.Statement (.dvi b a) := formField_basic rfl (by simp [Instr.opcode])

theorem FormField.mod (b a : Operand) : FormField.Statement (.mod b a) := formField_basic rfl (by simp [Instr.opcode])

theorem FormField.mdi (b a : Operand) : FormField.Statement (.mdi b a) := formField_basic rfl (by simp [Instr.opcode])

theorem FormField.and (b a : Operand) : FormField.Statement (.and b a) := formField_basic rfl (by simp [Instr.opcode])

theorem FormField.bor (b a : Operand) : FormField.Statement (.bor b a) := formField_basic rfl (by simp [Instr.opcode])

theorem FormField.xor (b a : Operand) : FormField.Statement (.xor b a) := formField_basic rfl (by simp [Instr.opcode])

theorem FormField.shr (b a : Operand) : FormField.Statement (.shr b a) := formField_basic rfl (by simp [Instr.opcode])

theorem FormField.asr (b a : Operand) : FormField.Statement (.asr b a) := formField_basic rfl (by simp [Instr.opcode])

theorem FormField.shl (b a : Operand) : FormField.Statement (.shl b a) := formField_basic rfl (by simp [Instr.opcode])

theorem FormField.ifb (b a : Operand) : FormField.Statement (.ifb b a) := formField_basic rfl (by simp [Instr.opcode])

theorem FormField.ifc (b a : Operand) : FormField.Statement (.ifc b a) := formField_basic rfl (by simp [Instr.opcode])

theorem FormField.ife (b a : Operand) : FormField.Statement (.ife b a) := formField_basic rfl (by simp [Instr.opcode])

theorem FormField.ifn (b a : Operand) : FormField.Statement (.ifn b a) := formField_basic rfl (by simp [Instr.opcode])

theorem FormField.ifg (b a : Operand) : FormField.Statement (.ifg b a) := formField_basic rfl (by simp [Instr.opcode])

theorem FormField.ifa (b a : Operand) : FormField.Statement (.ifa b a) := formField_basic rfl (by simp [Instr.opcode])

theorem FormField.ifl (b a : Operand) : FormField.Statement (.ifl b a) := formField_basic rfl (by simp [Instr.opcode])

theorem FormField.ifu (b a : Operand) : FormField.Statement (.ifu b a) := formField_basic rfl (by simp [Instr.opcode])

theorem FormField.adx (b a : Operand) : FormField.Statement (.adx b a) := formField_basic rfl (by simp [Instr.opcode])

theorem FormField.sbx (b a : Operand) : FormField.Statement (.sbx b a) := formField_basic rfl (by simp [Instr.opcode])

theorem FormField.sti (b a : Operand) : FormField.Statement (.sti b a) := formField_basic rfl (by simp [Instr.opcode])

theorem FormField.std (b a : Operand) : FormField.Statement (.std b a) := formField_basic rfl (by simp [Instr.opcode])

theorem FormField.jsr (a : Operand) : FormField.Statement (.jsr a) := formField_special rfl

theorem FormField.hcf (a : Operand) : FormField.Statement (.hcf a) := formField_special rfl

theorem FormField.int (a : Operand) : FormField.Statement (.int a) := formField_special rfl

theorem FormField.iag (a : Operand) : FormField.Statement (.iag a) := formField_special rfl

theorem FormField.ias (a : Operand) : FormField.Statement (.ias a) := formField_special rfl

theorem FormField.rfi (a : Operand) : FormField.Statement (.rfi a) := formField_special rfl

theorem FormField.iaq (a : Operand) : FormField.Statement (.iaq a) := formField_special rfl

theorem FormField.hwn (a : Operand) : FormField.Statement (.hwn a) := formField_special rfl

theorem FormField.hwq (a : Operand) : FormField.Statement (.hwq a) := formField_special rfl

theorem FormField.hwi (a : Operand) : FormField.Statement (.hwi a) := formField_special rfl

end Sys2Proof.Laws
end

