-- ==== Sys2Proof/Laws/Step.lean ====
section
/-! SUPPORT. The effects the meanings share, and the phases of a step: what they can do, and their values where no
device watches. -/

namespace Sys2Proof.Machine

open State

/-! ### The common rule of the ALU instructions -/

/-- Two states that differ as the environment may make them still do so after the same write. -/
theorem pokeLoc_env {s t : State} (h : EnvStep s t) (l : Loc) (v : Word) :
    EnvStep (pokeLoc l v s) (pokeLoc l v t) := by
  have ⟨h1, h2, h3, h4, h5, h6, h7, h8, h9, h10, h11, h12⟩ := h
  cases l <;> exact ⟨by simp [pokeLoc, h1], by simp [pokeLoc, h2], by simp [pokeLoc, h3], by simp [pokeLoc, h4],
    by simp [pokeLoc, h5], by simpa [pokeLoc] using h6, by simp [pokeLoc, h7], by simp [pokeLoc, h8],
    by simp [pokeLoc, h9], by simp [pokeLoc, h10], by simp [pokeLoc, h11], by simp [pokeLoc, h12]⟩

theorem setEx_env {s t : State} (h : EnvStep s t) (v : Word) : EnvStep (s.setEx v) (t.setEx v) :=
  ⟨h.x, h.sp, h.pc, rfl, h.ia, h.irqq, h.iaq, h.skip, h.running, h.cycles, h.devices, h.diags⟩

/-- With any devices: the result of some value of b, in b's location, and EX; va is as it was. -/
theorem aluEffect_ok {f : AluFn} {b a : Operand} {s t : State} (h : aluEffect f b a s = .ok t) :
    ∃ vb, EnvStep (aluState b a s (f (valA b a s) vb s.ex).1 (f (valA b a s) vb s.ex).2) t ∧ Keeps s t := by
  obtain ⟨o, ho, h⟩ := bind_eq_ok.1 h
  obtain ⟨u, hu, h⟩ := bind_eq_ok.1 h
  cases h
  obtain ⟨-, hlb, hva, he, hk⟩ := operands_ok ho
  obtain ⟨we, wk⟩ := writeLoc_ok hu
  refine ⟨o.vb, ?_, hk.trans (wk.trans (.of_eq rfl rfl rfl rfl))⟩
  have hex : o.st.ex = s.ex := he.ex
  rw [hex, hlb, hva] at we
  rw [hex, hva]
  rw [← locate_state] at he
  exact setEx_env ((pokeLoc_env he _ _).trans we) _

theorem aluEffect_quiet {f : AluFn} {b a : Operand} {s : State} (h : quietPair b a s = true) :
    aluEffect f b a s = .ok (aluState b a s (f (valA b a s) (valB b a s) s.ex).1
      (f (valA b a s) (valB b a s) s.ex).2) := by
  simp only [quietPair, Bool.and_eq_true] at h
  have hd : (locate b a s).st.devices = s.devices := by rw [locate_state]; rfl
  have hb : (locate b a s).st.quietLoc (locate b a s).lb = true := (quietLoc_of_devices hd _).trans h.2
  have hex : (locate b a s).st.ex = s.ex := by rw [locate_state]; rfl
  simp only [aluEffect, operands_quiet h.1 h.2, ok_bind, hex]
  rw [writeLoc_quiet hb]
  rfl

/-! ### The common rule of the conditional instructions -/

theorem condEffect_ok {p : Word → Word → Bool} {b a : Operand} {s t : State} (h : condEffect p b a s = .ok t) :
    (EnvStep (locate b a s).st t ∨ EnvStep ((locate b a s).st.setSkip true) t) ∧ Keeps s t := by
  obtain ⟨o, ho, h⟩ := bind_eq_ok.1 h
  obtain ⟨-, -, -, he, hk⟩ := operands_ok ho
  rw [← locate_state] at he
  split at h <;> cases h
  · exact ⟨.inl he, hk⟩
  · exact ⟨.inr ⟨he.x, he.sp, he.pc, he.ex, he.ia, he.irqq, he.iaq, rfl, he.running, he.cycles, he.devices, he.diags⟩,
      hk.trans (.of_eq rfl rfl rfl rfl)⟩

theorem condEffect_quiet {p : Word → Word → Bool} {b a : Operand} {s : State} (h : quietPair b a s = true) :
    condEffect p b a s =
      .ok (if p (valA b a s) (valB b a s) then (locate b a s).st else (locate b a s).st.setSkip true) := by
  simp only [quietPair, Bool.and_eq_true] at h
  simp only [condEffect, operands_quiet h.1 h.2, ok_bind]
  rfl

/-! ### The fetch -/

/-- With any devices: the first word at PC is what is decoded, and PC stands past the instruction. -/
theorem fetch_ok {s : State} {r : Fetched} (h : fetch s = .ok r) :
    r.p = s.pc ∧ r.w = s.mem.read s.pc ∧ (∃ x1 x2, r.d = decode r.w x1 x2) ∧
      EnvStep (s.setPc (s.pc + BitVec.ofNat 16 (wordLength r.w))) r.st ∧ Keeps s r.st := by
  obtain ⟨q, hq, h⟩ := bind_eq_ok.1 h
  obtain ⟨qs, hqs, h⟩ := bind_eq_ok.1 h
  cases h
  obtain ⟨hv, he, hk⟩ := nextWord_ok hq
  obtain ⟨-, he', hk'⟩ := nextWords_ok hqs
  refine ⟨rfl, hv, ⟨_, _, rfl⟩, ⟨he'.x.trans he.x, he'.sp.trans he.sp, ?_, he'.ex.trans he.ex,
    he'.ia.trans he.ia, he.irqq.trans he'.irqq, he'.iaq.trans he.iaq, he'.skip.trans he.skip,
    he'.running.trans he.running, he'.cycles.trans he.cycles, he'.devices.trans he.devices,
    he'.diags.trans he.diags⟩, hk.trans hk'⟩
  rw [he'.pc, State.setPc_pc, he.pc, State.setPc_pc, State.setPc_pc, wordLength, BitVec.ofNat_add, BitVec.add_assoc]
  rfl

/-- ... and its value where no device watches the instruction's words: what stands in memory, decoded. -/
theorem fetch_quiet {s : State} (h : ∀ k, k < wordLength (s.mem.read s.pc) → s.quiet (s.pc + BitVec.ofNat 16 k) = true) :
    fetch s = .ok ⟨s.pc, s.mem.read s.pc,
      decode (s.mem.read s.pc) (s.mem.read (s.pc + 1)) (s.mem.read (s.pc + 2)),
      s.setPc (s.pc + BitVec.ofNat 16 (wordLength (s.mem.read s.pc)))⟩ := by
  have hs : ∀ k, s.pc + 1 + BitVec.ofNat 16 k = s.pc + BitVec.ofNat 16 (k + 1) := by
    intro k
    rw [BitVec.ofNat_add, BitVec.add_assoc, BitVec.add_comm 1]
    rfl
  have h0 : s.quiet s.pc = true := by simpa using h 0 (by unfold wordLength; omega)
  rw [fetch, nextWord_quiet h0, ok_bind, nextWords_quiet]
  · have hx : ∀ k, k < extraWords (s.mem.read s.pc) →
        ((List.range (extraWords (s.mem.read s.pc))).map
          (fun k => s.mem.read (s.pc + BitVec.ofNat 16 (k + 1)))).getD k 0 =
        s.mem.read (s.pc + BitVec.ofNat 16 (k + 1)) := by
      intro k hk
      simp [List.getD, List.getElem?_range hk]
    simp only [ok_bind, State.setPc_pc, State.setPc_mem, hs, decodeWords, List.getD_cons_zero, List.getD_cons_succ]
    rw [decode_irrelevant (fun h1 => hx 0 h1) (fun h2 => hx 1 h2), wordLength, Nat.add_comm 1 (extraWords _)]
    rfl
  · intro k hk
    rw [State.setPc_pc, hs]
    exact h (k + 1) (by unfold wordLength; simp only [] at hk; omega)

/-! ### The operand of a special instruction -/

theorem operand_val {a : Operand} {s : State} (h : quietOne a s = true) :
    operand a s = .ok ⟨(resolve .asA a s).1, val a s, s.setSp (s.sp + spMove .asA a)⟩ := by
  rw [operand_quiet h, ← resolve_state]; rfl

/-! ### SP under resolution, by operand code -/

theorem spMove_asA {c : Nat} (x : Word) (h : c < 64) :
    spMove .asA (decodeOperand c x) = if c = 0x18 then 1 else 0 := by
  by_cases hc : 0x20 ≤ c
  · rw [decodeOperand_inline hc, if_neg (by omega)]
    rfl
  · interval_cases c <;> rfl

theorem spMove_asB {c : Nat} (x : Word) (h : c < 32) :
    spMove .asB (decodeOperand c x) = if c = 0x18 then -1 else 0 := by
  interval_cases c <;> rfl

/-! ### The step -/

/-- A step in normal-fetch state, once delivery and the fetch are known. -/
theorem step_normal {s s1 : State} {r : Fetched} (hr : s.running = true) (hs : s.skip = false)
    (hd : deliverInterrupt s = .ok s1) (hf : fetch s1 = .ok r) :
    step s = countOutcome (runDecoded r.p r.w r.d r.st) := by
  simp [step, cycle, hr, hs, normalCycle, hd, hf]

/-- A step in skip state. -/
theorem step_skip {s : State} (hr : s.running = true) (hs : s.skip = true) :
    step s = countOutcome (skipCycle s) := by
  simp [step, cycle, hr, hs]

theorem countOutcome_eq_next {o : Host.Outcome State Fault Refusal} {t : State} :
    countOutcome o = .next t ↔ ∃ u, o = .next u ∧ t = u.countCycle := by
  cases o <;> simp [countOutcome, eq_comm]

/-- Where a step goes, whatever the state: a skip, or delivery, fetch and dispatch. -/
theorem step_cases {s t : State} (h : step s = .next t) :
    s.running = true ∧ ∃ u, t = u.countCycle ∧
      ((s.skip = true ∧ skipCycle s = .next u) ∨
        (s.skip = false ∧ ∃ s1 r, deliverInterrupt s = .ok s1 ∧ fetch s1 = .ok r ∧
          runDecoded r.p r.w r.d r.st = .next u)) := by
  unfold step cycle at h
  split at h
  case isFalse => cases h
  rename_i hr
  obtain ⟨u, hu, ht⟩ := countOutcome_eq_next.1 h
  refine ⟨hr, u, ht, ?_⟩
  split at hu
  · exact .inl ⟨‹_›, hu⟩
  · rename_i hk
    refine .inr ⟨Bool.eq_false_iff.2 hk, ?_⟩
    unfold normalCycle at hu
    split at hu
    · rename_i r hr
      obtain ⟨s1, hd, hf⟩ := bind_eq_ok.1 hr
      exact ⟨s1, r, hd, hf, hu⟩
    · cases hu

/-- A run of `k + 1` steps begins with one. -/
theorem steps_succ {k : Nat} {s t : State} (h : step s = .next t) : steps (k + 1) s = steps k t := by
  simp only [steps, h]

end Sys2Proof.Machine
end

