-- ==== Sys2Proof/Tests/Slice0.lean ====
section
/-! SUPPORT. The model's own tests: expected values are the spec's (95_test_vectors.md, 30_encoding.md section 5, or a
rule's own worked example), named beside each. At the end, for every obligation with hypotheses, a state and
operands that meet them. -/

namespace Sys2Proof.Tests

set_option Elab.async false

open Sys2Proof.Machine

/-! ### Well-formedness: an ill-formed term for each check, refused -/

/-- R75: operand b has no inline literal. -/
theorem test_wf_inline_as_b : (Instr.set (.inline 5) (.reg .A)).wf = false := by decide

/-- R76: 31 is past the largest inline literal. -/
theorem test_wf_inline_31 : (Instr.set (.reg .A) (.inline 31)).wf = false := by decide

/-- R76: -2 is below the smallest; special form. -/
theorem test_wf_inline_minus_2 : (Instr.jsr (.inline 0xfffe)).wf = false := by decide

/-- E57: a literal as operand b has the next-word form. -/
theorem test_wf_next_as_b : (Instr.set (.next 5) (.reg .A)).wf = true := by decide

/-- E2, E4: the ends of the inline range. -/
theorem test_wf_inline_ends :
    (Instr.set (.reg .A) (.inline 30)).wf = true ∧ (Instr.set (.reg .A) (.inline 0xffff)).wf = true := by decide

/-! ### Decoding: one written word for each constructor (95_test_vectors.md section 2.1), in the host's numbering too -/

/-- E1 to E20: SET with each operand form; each word encodes back. -/
theorem test_decode_operand_forms :
    [([0x7c01, 0x0030], Instr.set (.reg .A) (.next 0x30)), ([0xfc01], .set (.reg .A) (.inline 30)),
      ([0x8001], .set (.reg .A) (.inline 0xffff)), ([0x7fc1, 0x0020, 0x1000], .set (.abs 0x1000) (.next 0x20)),
      ([0x7803, 0x1000], .sub (.reg .A) (.abs 0x1000)), ([0x22c1, 0x2000], .set (.indNext .I 0x2000) (.ind .A)),
      ([0x6381], .set .pc .stack), ([0x0301], .set .stack (.reg .A)), ([0x6401], .set (.reg .A) .peek),
      ([0x6801, 0x0002], .set (.reg .A) (.pick 2)), ([0x0741, 0xffff], .set (.pick 0xffff) (.reg .B)),
      ([0x0361], .set .sp (.reg .A)), ([0x7401], .set (.reg .A) .ex),
      ([0x5de1, 0x0010], .set (.ind .J) (.indNext .J 0x10)),
      ([0x7bc2, 0x2000, 0x1000], .add (.abs 0x1000) (.abs 0x2000)),
      ([0x03e1, 0x0005], .set (.next 5) (.reg .A))].all
      (fun r => decide (decodeWords r.1 = .instr r.2) && decide (encode r.2 = r.1)) = true := by decide +kernel

/-- E33 to E56, with the rows of the table for SET, ADD and SUB. -/
theorem test_decode_basic :
    [((0x1061 : Word), Instr.set (.reg .X) (.reg .Y)), (0x1062, .add (.reg .X) (.reg .Y)),
      (0x1063, .sub (.reg .X) (.reg .Y)), (0x1064, .mul (.reg .X) (.reg .Y)), (0x1065, .mli (.reg .X) (.reg .Y)),
      (0x1066, .div (.reg .X) (.reg .Y)), (0x1067, .dvi (.reg .X) (.reg .Y)), (0x1068, .mod (.reg .X) (.reg .Y)),
      (0x1069, .mdi (.reg .X) (.reg .Y)), (0x106a, .and (.reg .X) (.reg .Y)), (0x106b, .bor (.reg .X) (.reg .Y)),
      (0x106c, .xor (.reg .X) (.reg .Y)), (0x106d, .shr (.reg .X) (.reg .Y)), (0x106e, .asr (.reg .X) (.reg .Y)),
      (0x106f, .shl (.reg .X) (.reg .Y)), (0x1070, .ifb (.reg .X) (.reg .Y)), (0x1071, .ifc (.reg .X) (.reg .Y)),
      (0x1072, .ife (.reg .X) (.reg .Y)), (0x1073, .ifn (.reg .X) (.reg .Y)), (0x1074, .ifg (.reg .X) (.reg .Y)),
      (0x1075, .ifa (.reg .X) (.reg .Y)), (0x1076, .ifl (.reg .X) (.reg .Y)), (0x1077, .ifu (.reg .X) (.reg .Y)),
      (0x107a, .adx (.reg .X) (.reg .Y)), (0x107b, .sbx (.reg .X) (.reg .Y)), (0x107e, .sti (.reg .X) (.reg .Y)),
      (0x107f, .std (.reg .X) (.reg .Y))].all
      (fun r => decide (decodeTableWord 16 r.1.toNat = some r.2) && decide (encode r.2 = [r.1])) = true := by
  decide +kernel

/-- E21 to E32. -/
theorem test_decode_special :
    [([0x7c20, 0x0100], Instr.jsr (.next 0x100)), ([0x2020], .jsr (.ind .A)), ([0x8500], .int (.inline 0)),
      ([0x7920, 0x1000], .iag (.abs 0x1000)), ([0x6140], .ias .stack), ([0x8560], .rfi (.inline 0)),
      ([0x8980], .iaq (.inline 1)), ([0x0200], .hwn (.reg .A)), ([0x8a20], .hwq (.inline 1)),
      ([0x0240], .hwi (.reg .A)), ([0x84e0], .hcf (.inline 0)), ([0x00e0], .hcf (.reg .A))].all
      (fun r => decide (decodeWords r.1 = .instr r.2) && decide (encode r.2 = r.1)) = true := by decide +kernel

/-- F1, F3, F4, F5, F8, F10, F15: reserved words, rejected with their operands and lengths. -/
theorem test_decode_reserved :
    decode 0x0000 0 0 = .reservedSpecial 0 (.reg .A) ∧ decode 0x7c00 7 0 = .reservedSpecial 0 (.next 7) ∧
    decode 0x0018 0 0 = .reservedBasic 0x18 (.reg .A) (.reg .A) ∧
    decode 0x6318 0 0 = .reservedBasic 0x18 .stack .stack ∧
    decode 0x03e0 0 0 = .reservedSpecial 0x1f (.reg .A) ∧
    decode 0x7ffd 1 2 = .reservedBasic 0x1d (.next 2) (.next 1) ∧
    decode 0x7e5c 1 2 = .reservedBasic 0x1c (.indNext .C 2) (.next 1) ∧
    wordLength 0x0000 = 1 ∧ wordLength 0x7c00 = 2 ∧ wordLength 0x7ffd = 3 ∧ decodeTableWord 16 0x0018 = none := by
  decide +kernel

/-! ### The functions of the ALU instructions -/

/-- Every row (vb, va, old EX, result, new EX) holds of `f`. -/
def aluRows (f : Word → Word → Word → Word × Word) (rows : List (Word × Word × Word × Word × Word)) : Bool :=
  rows.all (fun r => decide (f r.2.1 r.1 r.2.2.1 = (r.2.2.2.1, r.2.2.2.2)))

/-- 95_test_vectors.md section 2.2, A1 to A2. -/
theorem test_set_vectors : aluRows fSet
    [(0xffff, 0x1234, 0x0000, 0x1234, 0x0000), (0x5555, 0x0000, 0xbeef, 0x0000, 0x0000)] = true := by decide +kernel

/-- 95_test_vectors.md section 2.2, A3 to A8. -/
theorem test_add_vectors : aluRows fAdd
    [(0xffff, 0x0001, 0x0000, 0x0000, 0x0001), (0x0005, 0x0010, 0x0000, 0x0015, 0x0000),
     (0x8000, 0x8000, 0x0000, 0x0000, 0x0001), (0xffff, 0xffff, 0x0000, 0xfffe, 0x0001),
     (0x0000, 0x0000, 0x1234, 0x0000, 0x0000), (0x0001, 0x7fff, 0x0000, 0x8000, 0x0000)] = true := by decide +kernel

/-- 95_test_vectors.md section 2.2, A9 to A14. -/
theorem test_sub_vectors : aluRows fSub
    [(0x0000, 0x0001, 0x0000, 0xffff, 0xffff), (0x0010, 0x0005, 0x0000, 0x000b, 0x0000),
     (0x0005, 0x0010, 0x0000, 0xfff5, 0xffff), (0xffff, 0xffff, 0x0007, 0x0000, 0x0000),
     (0x8000, 0x0001, 0x0000, 0x7fff, 0x0000), (0x0000, 0xffff, 0x0000, 0x0001, 0xffff)] = true := by decide +kernel

/-- 95_test_vectors.md section 2.2, A15 to A19. -/
theorem test_mul_vectors : aluRows fMul
    [(0x1234, 0x5678, 0x0000, 0x0060, 0x0626), (0xffff, 0xffff, 0x0000, 0x0001, 0xfffe),
     (0x8000, 0x0002, 0x0000, 0x0000, 0x0001), (0xabcd, 0x0000, 0x0009, 0x0000, 0x0000),
     (0x0100, 0x0100, 0x0000, 0x0000, 0x0001)] = true := by decide +kernel

/-- 95_test_vectors.md section 2.2, A20 to A25. -/
theorem test_mli_vectors : aluRows fMli
    [(0xffff, 0xffff, 0x0000, 0x0001, 0x0000), (0x0002, 0xffff, 0x0000, 0xfffe, 0xffff),
     (0x8000, 0x8000, 0x0000, 0x0000, 0x4000), (0x7fff, 0x8000, 0x0000, 0x8000, 0xc000),
     (0xfffe, 0x0003, 0x0000, 0xfffa, 0xffff), (0x1234, 0x5678, 0x0000, 0x0060, 0x0626)] = true := by decide +kernel

/-- 95_test_vectors.md section 2.2, A26 to A32. -/
theorem test_div_vectors : aluRows fDiv
    [(0x1234, 0x0000, 0x5555, 0x0000, 0x0000), (0x0007, 0x0002, 0x0000, 0x0003, 0x8000),
     (0x0001, 0x0003, 0x0000, 0x0000, 0x5555), (0xffff, 0xffff, 0x0000, 0x0001, 0x0000),
     (0xffff, 0x0001, 0x0000, 0xffff, 0x0000), (0x1234, 0x0010, 0x0000, 0x0123, 0x4000),
     (0x0000, 0x0007, 0x0000, 0x0000, 0x0000)] = true := by decide +kernel

/-- 95_test_vectors.md section 2.2, A33 to A40. -/
theorem test_dvi_vectors : aluRows fDvi
    [(0x1234, 0x0000, 0x5555, 0x0000, 0x0000), (0xfff9, 0x0002, 0x0000, 0xfffd, 0x8000),
     (0x0007, 0xfffe, 0x0000, 0xfffd, 0x8000), (0xfff9, 0xfffe, 0x0000, 0x0003, 0x8000),
     (0x8000, 0xffff, 0x0000, 0x8000, 0x0000), (0x0001, 0x0003, 0x0000, 0x0000, 0x5555),
     (0xffff, 0x0003, 0x0000, 0x0000, 0xaaab), (0x8000, 0x0001, 0x0000, 0x8000, 0x0000)] = true := by decide +kernel

/-- 95_test_vectors.md section 2.2, A41 to A45. -/
theorem test_mod_vectors : aluRows fMod
    [(0x1234, 0x0000, 0x5555, 0x0000, 0x0000), (0x0007, 0x0003, 0x1111, 0x0001, 0x0000),
     (0xfffe, 0xffff, 0x0000, 0xfffe, 0x0000), (0xfff9, 0x0007, 0x0000, 0x0002, 0x0000),
     (0xabcd, 0x0001, 0x0000, 0x0000, 0x0000)] = true := by decide +kernel

/-- 95_test_vectors.md section 2.2, A46 to A52. -/
theorem test_mdi_vectors : aluRows fMdi
    [(0x1234, 0x0000, 0x5555, 0x0000, 0x0000), (0xfff9, 0x0010, 0x1111, 0xfff9, 0x0000),
     (0xfff9, 0x0003, 0x0000, 0xffff, 0x0000), (0x0007, 0xfffd, 0x0000, 0x0001, 0x0000),
     (0xfff9, 0xfffd, 0x0000, 0xffff, 0x0000), (0x8000, 0xffff, 0x0000, 0x0000, 0x0000),
     (0x7fff, 0x8000, 0x0000, 0x7fff, 0x0000)] = true := by decide +kernel

/-- 95_test_vectors.md section 2.2, A53 to A54. -/
theorem test_and_vectors : aluRows fAnd
    [(0xff00, 0x0ff0, 0x1111, 0x0f00, 0x0000), (0xffff, 0x0000, 0x0000, 0x0000, 0x0000)] = true := by decide +kernel

/-- 95_test_vectors.md section 2.2, A55 to A56. -/
theorem test_bor_vectors : aluRows fBor
    [(0xff00, 0x0ff0, 0x1111, 0xfff0, 0x0000), (0x0000, 0x0000, 0x0005, 0x0000, 0x0000)] = true := by decide +kernel

/-- 95_test_vectors.md section 2.2, A57 to A58. -/
theorem test_xor_vectors : aluRows fXor
    [(0xff00, 0x0ff0, 0x1111, 0xf0f0, 0x0000), (0xffff, 0xffff, 0x0000, 0x0000, 0x0000)] = true := by decide +kernel

/-- 95_test_vectors.md section 2.2, A59 to A67. -/
theorem test_shr_vectors : aluRows fShr
    [(0x1234, 0x0004, 0x0000, 0x0123, 0x4000), (0x1234, 0x0000, 0x5555, 0x1234, 0x0000),
     (0x8001, 0x0001, 0x0000, 0x4000, 0x8000), (0x8000, 0x000f, 0x0000, 0x0001, 0x0000),
     (0x1234, 0x0010, 0x0000, 0x0000, 0x1234), (0x8000, 0x0011, 0x0000, 0x0000, 0x4000),
     (0x8000, 0x001f, 0x0000, 0x0000, 0x0001), (0xffff, 0x0020, 0x5555, 0x0000, 0x0000),
     (0xffff, 0xffff, 0x0000, 0x0000, 0x0000)] = true := by decide +kernel

/-- 95_test_vectors.md section 2.2, A68 to A79. -/
theorem test_asr_vectors : aluRows fAsr
    [(0x8234, 0x0004, 0x0000, 0xf823, 0x4000), (0x1234, 0x0004, 0x0000, 0x0123, 0x4000),
     (0x8000, 0x0000, 0x5555, 0x8000, 0x0000), (0x8001, 0x0001, 0x0000, 0xc000, 0x8000),
     (0x8000, 0x000f, 0x0000, 0xffff, 0x0000), (0x8234, 0x0010, 0x0000, 0xffff, 0x8234),
     (0x1234, 0x0010, 0x0000, 0x0000, 0x1234), (0x8000, 0x0011, 0x0000, 0xffff, 0x4000),
     (0x8000, 0x001f, 0x0000, 0xffff, 0x0001), (0x8000, 0x0020, 0x0000, 0xffff, 0x0000),
     (0x7fff, 0x0020, 0x0000, 0x0000, 0x0000), (0xffff, 0xffff, 0x0000, 0xffff, 0x0000)] = true := by decide +kernel

/-- 95_test_vectors.md section 2.2, A80 to A88. -/
theorem test_shl_vectors : aluRows fShl
    [(0x1234, 0x0004, 0x0000, 0x2340, 0x0001), (0x1234, 0x0000, 0x5555, 0x1234, 0x0000),
     (0x8001, 0x0001, 0x0000, 0x0002, 0x0001), (0xffff, 0x000f, 0x0000, 0x8000, 0x7fff),
     (0x1234, 0x0010, 0x0000, 0x0000, 0x1234), (0x0001, 0x0011, 0x0000, 0x0000, 0x0002),
     (0x0001, 0x001f, 0x0000, 0x0000, 0x8000), (0xffff, 0x0020, 0x5555, 0x0000, 0x0000),
     (0x0001, 0xffff, 0x0000, 0x0000, 0x0000)] = true := by decide +kernel

/-- 95_test_vectors.md section 2.2, A89 to A95. -/
theorem test_adx_vectors : aluRows fAdx
    [(0x0001, 0x0002, 0x0001, 0x0004, 0x0000), (0xffff, 0x0000, 0x0001, 0x0000, 0x0001),
     (0xffff, 0xffff, 0xffff, 0xfffd, 0x0001), (0x0001, 0x0001, 0x0000, 0x0002, 0x0000),
     (0x0000, 0xffff, 0x0001, 0x0000, 0x0001), (0x0000, 0x0000, 0xffff, 0xffff, 0x0000),
     (0x0000, 0x0001, 0xffff, 0x0000, 0x0001)] = true := by decide +kernel

/-- 95_test_vectors.md section 2.2, A96 to A105. -/
theorem test_sbx_vectors : aluRows fSbx
    [(0x0005, 0x0001, 0x0000, 0x0004, 0x0000), (0x0001, 0x0005, 0x0000, 0xfffc, 0xffff),
     (0x0005, 0x0001, 0xffff, 0x0003, 0x0001), (0x0005, 0x0005, 0xffff, 0xffff, 0x0000),
     (0x0000, 0x0000, 0xffff, 0xffff, 0x0000), (0xffff, 0x0000, 0x0001, 0x0000, 0x0001),
     (0x0001, 0x0005, 0x0001, 0xfffd, 0xffff), (0x0000, 0xffff, 0x0000, 0x0001, 0xffff),
     (0x0000, 0x0001, 0x0001, 0x0000, 0x0000), (0x0005, 0x0006, 0x0001, 0x0000, 0x0000)] = true := by decide +kernel

/-! ### The predicates of the conditional instructions -/

/-- Every row (vb, va, predicate) holds of `p`. -/
def predRows (p : Word → Word → Bool) (rows : List (Word × Word × Bool)) : Bool :=
  rows.all (fun r => decide (p r.2.1 r.1 = r.2.2))

/-- 95_test_vectors.md section 2.3, T1 to T11. -/
theorem test_ifb_vectors : predRows pIfb
    [(0x0005, 0x0005, true), (0x0005, 0x0003, true), (0x0003, 0x0005, true), (0xffff, 0x0001, true),
     (0x0001, 0xffff, true), (0x8000, 0x7fff, false), (0x0000, 0x0000, false), (0x00f0, 0x0f00, false),
     (0x00f0, 0x0030, true), (0xffff, 0xffff, true), (0x8000, 0x8001, true)] = true := by decide +kernel

/-- 95_test_vectors.md section 2.3, T1 to T11. -/
theorem test_ifc_vectors : predRows pIfc
    [(0x0005, 0x0005, false), (0x0005, 0x0003, false), (0x0003, 0x0005, false), (0xffff, 0x0001, false),
     (0x0001, 0xffff, false), (0x8000, 0x7fff, true), (0x0000, 0x0000, true), (0x00f0, 0x0f00, true),
     (0x00f0, 0x0030, false), (0xffff, 0xffff, false), (0x8000, 0x8001, false)] = true := by decide +kernel

/-- 95_test_vectors.md section 2.3, T1 to T11. -/
theorem test_ife_vectors : predRows pIfe
    [(0x0005, 0x0005, true), (0x0005, 0x0003, false), (0x0003, 0x0005, false), (0xffff, 0x0001, false),
     (0x0001, 0xffff, false), (0x8000, 0x7fff, false), (0x0000, 0x0000, true), (0x00f0, 0x0f00, false),
     (0x00f0, 0x0030, false), (0xffff, 0xffff, true), (0x8000, 0x8001, false)] = true := by decide +kernel

/-- 95_test_vectors.md section 2.3, T1 to T11. -/
theorem test_ifn_vectors : predRows pIfn
    [(0x0005, 0x0005, false), (0x0005, 0x0003, true), (0x0003, 0x0005, true), (0xffff, 0x0001, true),
     (0x0001, 0xffff, true), (0x8000, 0x7fff, true), (0x0000, 0x0000, false), (0x00f0, 0x0f00, true),
     (0x00f0, 0x0030, true), (0xffff, 0xffff, false), (0x8000, 0x8001, true)] = true := by decide +kernel

/-- 95_test_vectors.md section 2.3, T1 to T11. -/
theorem test_ifg_vectors : predRows pIfg
    [(0x0005, 0x0005, false), (0x0005, 0x0003, true), (0x0003, 0x0005, false), (0xffff, 0x0001, true),
     (0x0001, 0xffff, false), (0x8000, 0x7fff, true), (0x0000, 0x0000, false), (0x00f0, 0x0f00, false),
     (0x00f0, 0x0030, true), (0xffff, 0xffff, false), (0x8000, 0x8001, false)] = true := by decide +kernel

/-- 95_test_vectors.md section 2.3, T1 to T11. -/
theorem test_ifa_vectors : predRows pIfa
    [(0x0005, 0x0005, false), (0x0005, 0x0003, true), (0x0003, 0x0005, false), (0xffff, 0x0001, false),
     (0x0001, 0xffff, true), (0x8000, 0x7fff, false), (0x0000, 0x0000, false), (0x00f0, 0x0f00, false),
     (0x00f0, 0x0030, true), (0xffff, 0xffff, false), (0x8000, 0x8001, false)] = true := by decide +kernel

/-- 95_test_vectors.md section 2.3, T1 to T11. -/
theorem test_ifl_vectors : predRows pIfl
    [(0x0005, 0x0005, false), (0x0005, 0x0003, false), (0x0003, 0x0005, true), (0xffff, 0x0001, false),
     (0x0001, 0xffff, true), (0x8000, 0x7fff, false), (0x0000, 0x0000, false), (0x00f0, 0x0f00, true),
     (0x00f0, 0x0030, false), (0xffff, 0xffff, false), (0x8000, 0x8001, true)] = true := by decide +kernel

/-- 95_test_vectors.md section 2.3, T1 to T11. -/
theorem test_ifu_vectors : predRows pIfu
    [(0x0005, 0x0005, false), (0x0005, 0x0003, false), (0x0003, 0x0005, true), (0xffff, 0x0001, true),
     (0x0001, 0xffff, false), (0x8000, 0x7fff, true), (0x0000, 0x0000, false), (0x00f0, 0x0f00, true),
     (0x00f0, 0x0030, false), (0xffff, 0xffff, false), (0x8000, 0x8001, true)] = true := by decide +kernel

/-! ### Single steps (95_test_vectors.md sections 2.3 to 2.6): everything not named is 0 or unchanged -/

/-- PC and memory, canonical, in the reset state. -/
def at_ (pc : Word) (mem : Memory) : State := { State.reset with pc := pc, mem := mem }

/-- The step from `s` answers exactly `t`. -/
def goesTo (s t : State) : Bool :=
  match step s with
  | .next u => decide (u = t)
  | .fault _ => false
  | .refused _ => false

/-- The step from `s` stops with this fault. -/
def stopsWith (s : State) (f : Fault) : Bool :=
  match step s with
  | .next _ => false
  | .fault g => decide (g = f)
  | .refused _ => false

/-- K1: a three-word instruction stepped over. -/
theorem test_skip_three_words :
    let s := { at_ 0x10 [(0x10, 0x7fc1), (0x11, 0x0020), (0x12, 0x1000)] with skip := true }
    goesTo s { s with pc := 0x13, skip := false, cycles := 1 } = true := by decide +kernel

/-- K2: a skipped conditional keeps the skip state. -/
theorem test_skip_conditional :
    let s := { at_ 0x10 [(0x10, 0x1072)] with skip := true }
    goesTo s { s with pc := 0x11, cycles := 1 } = true := by decide +kernel

/-- K5: no SP move and no delivery in a skip step. -/
theorem test_skip_holds_interrupt :
    let s := { at_ 0x10 [(0x10, 0x6318)] with skip := true, sp := 0x10, irqq := [9], ia := 0x200 }
    goesTo s { s with pc := 0x11, skip := false, cycles := 1 } = true := by decide +kernel

/-- M1: a reserved word with POP and PUSH. -/
theorem test_reserved_basic :
    let s := { at_ 0 [(0, 0x6318), (0x10, 0x4444)] with sp := 0x10 }
    goesTo s { s with pc := 1, diags := [⟨0, 0x6318⟩], cycles := 1 } = true := by decide +kernel

/-- R126 with F3: a reserved special word of two words. -/
theorem test_reserved_special :
    let s := at_ 0 [(0, 0x7c00), (1, 5)]
    goesTo s { s with pc := 2, diags := [⟨0, 0x7c00⟩], cycles := 1 } = true := by decide +kernel

/-- M2: PUSH as b of a conditional moves SP and writes nothing. -/
theorem test_ife_push :
    let s := at_ 0 [(0, 0x0312)]
    goesTo s { s with sp := 0xffff, pc := 1, cycles := 1 } = true := by decide +kernel

/-- M3: `SET PICK 1, POP` addresses with the new SP. -/
theorem test_set_pick_pop :
    let s := { at_ 0x10 [(0x10, 0x6341), (0x11, 1), (0xfffe, 0xaaaa)] with sp := 0xfffe }
    goesTo s { s with sp := 0xffff, pc := 0x12, cycles := 1, mem := (0, 0xaaaa) :: s.mem } = true := by decide +kernel

/-- M5: one cell as source and destination. -/
theorem test_add_same_cell :
    let s := at_ 0 [(0, 0x7bc2), (1, 0x1000), (2, 0x1000), (0x1000, 3)]
    goesTo s { s with pc := 3, cycles := 1, mem := [(0, 0x7bc2), (1, 0x1000), (2, 0x1000), (0x1000, 6)] } = true := by
  decide +kernel

/-- M6: `SUB PC, 1` is its own target. -/
theorem test_sub_pc :
    let s := at_ 0x40 [(0x40, 0x8b83)]
    goesTo s { s with cycles := 1 } = true := by decide +kernel

/-- M7: PC reads as the address after the whole instruction. -/
theorem test_set_from_pc :
    let s := at_ 0 [(0, 0x73c1), (1, 0x1000)]
    goesTo s { s with pc := 2, cycles := 1, mem := [(0, 0x73c1), (1, 0x1000), (0x1000, 2)] } = true := by decide +kernel

/-- M8: PC wraps. -/
theorem test_pc_wraps :
    let s := at_ 0xffff [(0xffff, 0x8801)]
    goesTo s { s with x := s.x.set .A 1, pc := 0, cycles := 1 } = true := by decide +kernel

/-- M9: the first extra word is operand a's. -/
theorem test_extra_word_order :
    let s := { at_ 0 [(0, 0x7e01), (1, 0x2000), (2, 0x1000)] with x := State.reset.x.set .A 1 }
    goesTo s { s with pc := 3, cycles := 1, mem := s.mem ++ [(0x1001, 0x2000)] } = true := by decide +kernel

/-- M10: a write to a literal is discarded. -/
theorem test_set_literal :
    let s := at_ 0 [(0, 0x03e1), (1, 0x1234)]
    goesTo s { s with pc := 2, cycles := 1 } = true := by decide +kernel

/-- M11: EX as the destination keeps the instruction's own EX. -/
theorem test_add_ex :
    let s := { at_ 0 [(0, 0x8ba2)] with ex := 7 }
    goesTo s { s with pc := 1, ex := 0, cycles := 1 } = true := by decide +kernel

/-- M14: POP wraps SP. -/
theorem test_pop_wraps :
    let s := { at_ 0 [(0, 0x6001), (0xffff, 0x0bad)] with sp := 0xffff }
    goesTo s { s with x := s.x.set .A 0x0bad, sp := 0, pc := 1, cycles := 1 } = true := by decide +kernel

/-- M15: STI writes with the old I, and I wraps. -/
theorem test_sti :
    let s := { at_ 0x100 [(0x100, 0x1ade), (0x101, 0xffff)] with x := State.reset.x.set .I 0xffff }
    goesTo s { s with x := State.reset.x.set .J 1, pc := 0x102, cycles := 1, mem := s.mem ++ [(0xfffe, 0xffff)] } =
      true := by decide +kernel

/-- M17: STD. -/
theorem test_std :
    let s := { at_ 0x100 [(0x100, 0x1dff)] with x := State.reset.x.set .J 1 }
    goesTo s { s with x := State.reset.x.set .I 0xffff, pc := 0x101, cycles := 1, mem := (1, 1) :: s.mem } = true := by
  decide +kernel

/-- M16, its second instruction: the value pushed is the new SP. -/
theorem test_set_push_sp :
    let s := { at_ 1 [(1, 0x6f01)] with sp := 0x8002 }
    goesTo s { s with sp := 0x8001, pc := 2, cycles := 1, mem := s.mem ++ [(0x8001, 0x8001)] } = true := by
  decide +kernel

/-- X1: JSR. -/
theorem test_jsr :
    let s := at_ 0x20 [(0x20, 0x7c20), (0x21, 0x100)]
    goesTo s { s with sp := 0xffff, pc := 0x100, cycles := 1, mem := s.mem ++ [(0xffff, 0x22)] } = true := by
  decide +kernel

/-- X2: JSR POP reads the cell it then overwrites. -/
theorem test_jsr_pop :
    let s := { at_ 0x30 [(0x30, 0x6020), (0xfffe, 0x200)] with sp := 0xfffe }
    goesTo s { s with pc := 0x200, cycles := 1, mem := [(0x30, 0x6020), (0xfffe, 0x31)] } = true := by decide +kernel

/-- X3, X4: IAG to a register and to a literal. -/
theorem test_iag :
    let s := { at_ 0 [(0, 0x0520)] with ia := 0x77 }
    let l := { at_ 0 [(0, 0x9920)] with ia := 0x77 }
    goesTo s { s with x := s.x.set .B 0x77, pc := 1, cycles := 1 } = true ∧
      goesTo l { l with pc := 1, cycles := 1 } = true := by decide +kernel

/-- X5: IAS. -/
theorem test_ias :
    let s := { at_ 0 [(0, 0x0d40)] with x := State.reset.x.set .X 0x1234 }
    goesTo s { s with ia := 0x1234, pc := 1, cycles := 1 } = true := by decide +kernel

/-- X6, X7: IAQ sets for any non-zero operand, clears for zero. -/
theorem test_iaq :
    let s := at_ 0 [(0, 0x7d80), (1, 0x8000)]
    let c := { at_ 0 [(0, 0x8580)] with iaq := true }
    goesTo s { s with iaq := true, pc := 2, cycles := 1 } = true ∧
      goesTo c { c with iaq := false, pc := 1, cycles := 1 } = true := by decide +kernel

/-- X8: RFI pops A and then PC. -/
theorem test_rfi :
    let s := { at_ 0x50 [(0x50, 0x8560), (0xfffe, 0x777), (0xffff, 8)] with
      iaq := true, sp := 0xfffe, x := State.reset.x.set .A 0x42 }
    goesTo s { s with x := s.x.set .A 0x777, sp := 0, pc := 8, iaq := false, cycles := 1 } = true := by decide +kernel

/-- X9: INT queues its message. -/
theorem test_int :
    let s := at_ 0 [(0, 0x7d00), (1, 0x42)]
    goesTo s { s with irqq := [0x42], pc := 2, cycles := 1 } = true := by decide +kernel

/-- I7, its last step: the 257th waiting message has no next state. -/
theorem test_int_overflow :
    stopsWith { at_ 1 [(1, 0x8900)] with iaq := true, irqq := List.replicate 256 1 } .interruptQueueOverflow =
      true := by decide +kernel

/-- X10: HCF. -/
theorem test_hcf :
    let s := at_ 0x10 [(0x10, 0x84e0)]
    goesTo s { s with pc := 0x11, running := false, cycles := 1 } = true := by decide +kernel

/-- X12, X13: HWN with an empty registry, and to a literal. -/
theorem test_hwn_empty :
    let s := { at_ 0 [(0, 0x0200)] with x := State.reset.x.set .A 5 }
    let l := at_ 0 [(0, 0x7e00), (1, 0x1234)]
    goesTo s { s with x := State.reset.x, pc := 1, cycles := 1 } = true ∧
      goesTo l { l with pc := 2, cycles := 1 } = true := by decide +kernel

/-- X14: no device 0 in an empty registry. -/
theorem test_no_such_device :
    stopsWith (at_ 0 [(0, 0x8620)]) (.noSuchDevice 0) = true ∧
      stopsWith (at_ 0 [(0, 0x8640)]) (.noSuchDevice 0) = true := by decide +kernel

/-- I1: delivery is the first phase of the step. -/
theorem test_interrupt_entry :
    let s := { at_ 0x10 [(0x10, 0x8861), (0x100, 0x0021)] with
      irqq := [0x42], ia := 0x100, x := State.reset.x.set .A 0x1111 }
    goesTo s { s with
      x := (State.reset.x.set .A 0x42).set .B 0x42, sp := 0xfffe, pc := 0x101, iaq := true, irqq := [], cycles := 1,
      mem := s.mem ++ [(0xfffe, 0x1111), (0xffff, 0x10)] } = true := by decide +kernel

/-- I2, I3: dropped with IA = 0; held with queueing on. -/
theorem test_interrupt_dropped_held :
    let s := { at_ 0x10 [(0x10, 0x8861)] with irqq := [0x42] }
    let h := { at_ 0x10 [(0x10, 0x8861)] with irqq := [0x42, 0x43], ia := 0x100, iaq := true }
    goesTo s { s with x := s.x.set .X 1, pc := 0x11, irqq := [], cycles := 1 } = true ∧
      goesTo h { h with x := h.x.set .X 1, pc := 0x11, cycles := 1 } = true := by decide +kernel

/-- I6: entry's pushes wrap through address 0. -/
theorem test_interrupt_entry_wraps :
    let s := { at_ 0 [(0, 0x8861), (0x100, 0x0021)] with
      irqq := [0x42], ia := 0x100, sp := 1, x := State.reset.x.set .A 0x1111 }
    goesTo s { s with
      x := (State.reset.x.set .A 0x42).set .B 0x42, sp := 0xffff, pc := 0x101, iaq := true, irqq := [], cycles := 1,
      mem := [(0x100, 0x0021), (0xffff, 0x1111)] } = true := by decide +kernel

/-! ### Devices: T0 and T1 of 95_test_vectors.md, their answers tabled for the inputs used -/

/-- T0 in its second command (A = 1: mem[B] <- C), for the register file and memory `i`. -/
def t0 (i : RegFile) (m : Memory) (r : RegFile) (ws : List (Word × Word)) (qs : List Word) : Device where
  range := none
  onSet := none
  onGet := none
  interrupt := some ⟨[(([], i, m), ⟨[], r, ws, qs⟩)], 0⟩
  tick := none
  descriptor := ⟨0x12345678, 1, 0x9abcdef0⟩

/-- T1, for a write of 0x1234 to 0x8000 and a read of 0x1234 there. -/
def t1 : Device where
  range := some (0x8000, 0x8001)
  onSet := some ⟨[(([], 0x8000, 0x1234), ⟨[0x8000, 0x1234], [(0x8002, 0xedcb)], []⟩)], 0⟩
  onGet := some ⟨[(([], 0x8000, 0x1234), ⟨[0x8000, 0x1234], [(0x8003, 1)], []⟩)], 0⟩
  interrupt := none
  tick := none
  descriptor := ⟨0, 0, 0⟩

/-- T0 that does nothing. -/
def t0idle : Device := t0 ⟨State.reset.x, 0, 0, 0⟩ [] ⟨State.reset.x, 0, 0, 0⟩ [] []

/-- R45: a read of a claimed cell (`SET A, [0x8000]`) notifies T1 after the read. -/
theorem test_onGet :
    let s := { at_ 0 [(0, 0x7801), (1, 0x8000), (0x8000, 0x1234)] with devices := [t0idle, t1], dev := [[], []] }
    goesTo s { s with
      x := s.x.set .A 0x1234, pc := 2, cycles := 1, dev := [[], [0x8000, 0x1234]],
      mem := s.mem ++ [(0x8003, 1)] } = true := by decide +kernel

/-- R46: JSR's push to a claimed cell notifies T1 after the write. -/
theorem test_onSet :
    let s := { at_ 0x1233 [(0x1233, 0x9c20)] with sp := 0x8001, devices := [t0idle, t1], dev := [[], []] }
    goesTo s { s with
      pc := 6, sp := 0x8000, cycles := 1, dev := [[], [0x8000, 0x1234]],
      mem := s.mem ++ [(0x8000, 0x1234), (0x8002, 0xedcb)] } = true := by decide +kernel

/-- R214, R216: HWN counts two devices, HWQ 0 gives T0's descriptor. -/
theorem test_hwn_hwq :
    let n := { at_ 0 [(0, 0x0200)] with devices := [t0idle, t1], dev := [[], []] }
    let q := { at_ 0 [(0, 0x8620)] with devices := [t0idle, t1], dev := [[], []] }
    goesTo n { n with x := n.x.set .A 2, pc := 1, cycles := 1 } = true ∧
      goesTo q { q with
        x := { q.x with A := 0x5678, B := 0x1234, C := 1, X := 0xdef0, Y := 0x9abc }, pc := 1, cycles := 1 } =
        true := by decide +kernel

/-- HWI 0 to T0 with A = 1: mem[B] <- C, raw, though T1 claims the cell. -/
def hwiState : State :=
  let x : Regs := { State.reset.x with A := 1, B := 0x8000, C := 0x1234 }
  { at_ 0 [(0, 0x8640)] with
    x := x, dev := [[], []],
    devices := [t0 ⟨x, 0, 1, 0⟩ [(0, 0x8640)] ⟨x, 0, 1, 0⟩ [(0x8000, 0x1234)] [7], t1] }

/-- R218: the dispatch, a raw write and a message; T1 is not notified (R52). -/
theorem test_hwi :
    goesTo hwiState { hwiState with
      pc := 1, cycles := 1, mem := [(0, 0x8640), (0x8000, 0x1234)], irqq := [7] } = true := by decide +kernel

/-- X14: HWI 2 with two devices; R218: a device without the capability does nothing. -/
theorem test_hwi_absent :
    let s := { hwiState with mem := [(0, 0x8e40)] }
    let t := { hwiState with mem := [(0, 0x8a40)] }
    stopsWith s (.noSuchDevice 2) = true ∧ goesTo t { t with pc := 1, cycles := 1 } = true := by decide +kernel

/-- P1's image at address 0 (R262), and the host's refusal of a range with lo > hi (R49). -/
theorem test_construct :
    (match State.construct [0xc401, 0x9802, 0x03c1, 0x9000, 0x00e0] [] with
      | .next s => decide (s = at_ 0 [(0, 0xc401), (1, 0x9802), (2, 0x03c1), (3, 0x9000), (4, 0x00e0)])
      | .fault _ => false
      | .refused _ => false) = true ∧
    (match State.construct [] [(⟨some (2, 1), none, none, none, none, ⟨0, 0, 0⟩⟩, [])] with
      | .next _ => false
      | .fault _ => false
      | .refused r => decide (r = .illegalRange)) = true := by decide +kernel

/-- R276 with R240: a halted machine, started again, delivers the message left in its queue (log entry 22). -/
theorem test_start_delivers :
    let s := { at_ 0x11 [(0x100, 0x8861)] with running := false, irqq := [0x42], ia := 0x100 }
    stopsWith s .notRunning = true ∧
      goesTo (hostStart s) { s with
        x := (s.x.set .A 0x42).set .X 1, sp := 0xfffe, pc := 0x101, iaq := true, irqq := [], running := true,
        cycles := 1, mem := s.mem ++ [(0xffff, 0x11)] } = true := by decide +kernel

/-- The host's placement: the instruction stands at PC and the next step runs it (log entry 15). -/
theorem test_withFetchWord :
    goesTo (State.reset.withFetchWord 16 0x9801) { at_ 1 [(0, 0x9801)] with
      x := State.reset.x.set .A 5, cycles := 1 } = true := by decide +kernel

/-! ### Witnesses: for each obligation with hypotheses, a state and operands that meet them all -/

/-- The outcome is a next state. -/
def nexts (o : Host.Outcome State Fault Refusal) : Bool :=
  match o with
  | .next _ => true
  | .fault _ => false
  | .refused _ => false

theorem exists_next {o : Host.Outcome State Fault Refusal} (h : nexts o = true) : ∃ t, o = .next t := by
  cases o with
  | next t => exact ⟨t, rfl⟩
  | fault f => cases h
  | refused r => cases h

/-- The computation succeeds. -/
def oks {α : Type} (e : Except Fault α) : Bool :=
  match e with
  | .ok _ => true
  | .error _ => false

theorem exists_ok {α : Type} {e : Except Fault α} (h : oks e = true) : ∃ t, e = .ok t := by
  cases e with
  | ok t => exact ⟨t, rfl⟩
  | error f => cases h

/-- A state with two devices, T1 claiming 0x8000 and 0x8001; registers, stack and memory not zero. -/
def wState : State :=
  { at_ 0x10 [(0x10, 0x9c20), (0x20, 0x0005), (0xfffe, 0x0777), (0xffff, 0x0008)] with
    x := ⟨1, 0x20, 3, 4, 5, 6, 7, 8⟩, sp := 0xfffe, ex := 9, ia := 0x200, devices := [t0idle, t1], dev := [[], []] }

theorem witness_DecodeEncodeRoundTrip : (Instr.std (.indNext .J 7) (.inline 30)).wf = true := by decide

theorem witness_EncodeDecodeExact :
    decode 0x7fc1 0x0020 0x1000 = .instr (.set (.abs 0x1000) (.next 0x0020)) := by decide

/-- Both sides of the equivalence. -/
theorem witness_ReservedWordsExactly : reservedWord 0x9801 = false ∧ reservedWord 0x0018 = true ∧
    reservedWord 0x0000 = true := by decide

/-- Both clauses at the ends of their ranges. -/
theorem witness_InlineLiteralIsCodeMinus33 :
    decodeOperand 0x20 0 = .inline 0xffff ∧ decodeOperand 0x3f 0 = .inline 30 ∧
    (Operand.inline (w16 (-1))).code = 0x20 ∧ (Operand.inline (w16 30)).code = 0x3f := by decide +kernel

theorem witness_ConstructLoadsImage :
    (∃ s, State.construct [0x9801, 0x84e0] [(t0idle, []), (t1, [])] = .next s) ∧
    65536 < (List.replicate 65537 (0 : Word)).length := by
  refine ⟨exists_next (by decide +kernel), ?_⟩
  rw [List.length_replicate]
  decide

theorem witness_MemoryReadAfterWrite : Memory.wf [(1, 2), (0xffff, 3)] = true ∧
    Memory.read (Memory.write [(1, 2), (0xffff, 3)] 1 0) 1 = 0 ∧
    Memory.read (Memory.write [(1, 2), (0xffff, 3)] 1 0) 0xffff = 3 := by decide

theorem witness_CanonicalMemoriesAreEqual :
    Memory.wf [(1, 2)] = true ∧ ∀ a : Word, Memory.read [(1, 2)] a = Memory.read (Memory.write [] 1 2) a :=
  ⟨by decide, fun _ => rfl⟩

/-- Just outside T1's range, on both sides. -/
theorem witness_UnclaimedAccessHasNoSideEffect :
    wState.quiet 0x7fff = true ∧ wState.quiet 0x8002 = true ∧ wState.mem.wf = true := by decide +kernel

/-- Inside T1's range, where it is notified. -/
theorem witness_NotificationsLeaveRegisters :
    (∃ r, memRead 0x8000 { wState with mem := [(0x8000, 0x1234)] } = .ok r) ∧
    (∃ t, memWrite 0x8000 0x1234 wState = .ok t) :=
  ⟨exists_ok (by decide +kernel), exists_ok (by decide +kernel)⟩

theorem witness_OverlappingClaimsInRegistryOrder :
    ({ wState with devices := [t1, t1] } : State).devices = [t1, t1] ∧ wState.dev = [[], []] ∧
    t1.claims 0x8000 = true ∧ t1.claims 0x8001 = true ∧
    t1.onSet = some ⟨[(([], 0x8000, 0x1234), ⟨[0x8000, 0x1234], [(0x8002, 0xedcb)], []⟩)], 0⟩ ∧
    t1.onGet = some ⟨[(([], 0x8000, 0x1234), ⟨[0x8000, 0x1234], [(0x8003, 1)], []⟩)], 0⟩ ∧
    (wState.listeners .get 0x8001).map Prod.fst = [1] ∧ wState.listeners .set 0x7fff = [] ∧
    (({ wState with devices := [t1, t0idle, t1] } : State).listeners .set 0x8000).map Prod.fst = [0, 2] := by
  decide +kernel

theorem witness_StoreSeenByNextFetch : wState.mem.wf = true ∧ wState.quiet wState.pc = true ∧
    ∃ t, memWrite wState.pc 0x84e0 wState = .ok t :=
  ⟨by decide +kernel, by decide +kernel, exists_ok (by decide +kernel)⟩

/-- Each clause at the ends of its range of codes. -/
theorem witness_RegisterAndLiteralOperands :
    resolve .asA (decodeOperand 0x00 9) wState = (.reg .A, wState) ∧
    resolve .asB (decodeOperand 0x07 9) wState = (.reg .J, wState) ∧
    resolve .asA (decodeOperand 0x20 9) wState = (.lit 0xffff, wState) ∧
    resolve .asA (decodeOperand 0x3f 9) wState = (.lit 30, wState) := by decide +kernel

/-- Each clause at the ends of its range of codes; PUSH at SP = 0, POP at SP = 0xffff (R110, R111). -/
theorem witness_MemoryOperands :
    resolve .asA (decodeOperand 0x08 9) wState = (.mem 1, wState) ∧
    resolve .asB (decodeOperand 0x0f 9) wState = (.mem 8, wState) ∧
    resolve .asA (decodeOperand 0x10 0xffff) wState = (.mem 0, wState) ∧
    resolve .asB (decodeOperand 0x17 9) wState = (.mem 17, wState) ∧
    resolve .asB (decodeOperand 0x18 9) { wState with sp := 0 } = (.mem 0xffff, { wState with sp := 0xffff }) ∧
    resolve .asA (decodeOperand 0x18 9) { wState with sp := 0xffff } = (.mem 0xffff, { wState with sp := 0 }) := by
  decide +kernel

theorem witness_StackDiscipline : wState.quiet (wState.sp - 1) = true ∧ wState.quiet wState.sp = true ∧
    wState.mem.wf = true := by decide +kernel

/-- An interrupt is delivered, and the handler's two-word instruction is run. -/
theorem witness_StepRunsDecodedInstruction :
    let s1 := { wState with pc := 0x200, mem := [(0x200, 0x7c01), (0x201, 5)] }
    s1.running = true ∧ s1.skip = false ∧ deliverInterrupt s1 = .ok s1 ∧
    decodeWords [s1.mem.read s1.pc, s1.mem.read (s1.pc + 1), s1.mem.read (s1.pc + 2)] =
      .instr (.set (.reg .A) (.next 5)) ∧
    s1.quiet 0x200 = true ∧ s1.quiet 0x201 = true ∧
    fetch s1 = .ok ⟨0x200, 0x7c01, .instr (.set (.reg .A) (.next 5)), { s1 with pc := 0x202 }⟩ :=
  ⟨rfl, rfl, rfl, rfl, by decide +kernel, by decide +kernel, rfl⟩

theorem witness_ReservedWordIsReportedNoOp :
    let s := at_ 0x10 [(0x10, 0x6318)]
    s.running = true ∧ s.skip = false ∧ deliverInterrupt s = .ok s ∧ reservedWord (s.mem.read s.pc) = true ∧
    (∀ a, s.quiet a = true) ∧ ∃ t, step s = .next t :=
  ⟨rfl, rfl, rfl, by decide +kernel, fun _ => rfl, exists_next (by decide +kernel)⟩

theorem witness_StoppedMachineHasNoStep :
    ({ wState with running := false } : State).running = false ∧ ∃ t, step wState = .next t :=
  ⟨rfl, exists_next (by decide +kernel)⟩

theorem witness_EveryStepCountsOneCycle : ∃ t, step wState = .next t := exists_next (by decide +kernel)

theorem witness_SkipStepMeasuresOnly :
    let s := { wState with skip := true }
    s.running = true ∧ s.skip = true ∧ s.quiet s.pc = true ∧ ∃ t, step s = .next t :=
  ⟨rfl, rfl, by decide +kernel, exists_next (by decide +kernel)⟩

/-- K7's run: two conditionals and the instruction after them. -/
theorem witness_SkipRunOfConditionals :
    let s := { at_ 1 [(1, 0x8812), (2, 0x8812), (3, 0x8821)] with skip := true }
    s.running = true ∧ s.skip = true ∧ (∀ j, j ≤ 2 → s.quiet (afterInstrs s.mem j s.pc) = true) ∧
    (∀ j, j < 2 → isConditional (s.mem.read (afterInstrs s.mem j s.pc)) = true) ∧
    isConditional (s.mem.read (afterInstrs s.mem 2 s.pc)) = false :=
  ⟨rfl, rfl, fun _ _ => rfl, by decide +kernel, by decide +kernel⟩

/-- `wState` with two messages waiting. -/
def wIrq : State := { wState with irqq := [0x42, 0x43] }

theorem witness_InterruptEntrySavesPcAndA :
    wIrq.iaq = false ∧ wIrq.irqq = 0x42 :: [0x43] ∧ wIrq.ia ≠ 0 ∧ wIrq.quiet (wIrq.sp - 1) = true ∧
    wIrq.quiet (wIrq.sp - 2) = true ∧ ∃ t, deliverInterrupt wIrq = .ok t :=
  ⟨rfl, rfl, by decide, by decide +kernel, by decide +kernel, exists_ok (by decide +kernel)⟩

/-- The three clauses: queueing on, no message, IA = 0. -/
theorem witness_InterruptHeldOrDropped :
    ({ wIrq with iaq := true } : State).iaq = true ∧ wState.irqq = [] ∧
    ({ wIrq with ia := 0 } : State).iaq = false ∧ ({ wIrq with ia := 0 } : State).irqq = 0x42 :: [0x43] ∧
    ({ wIrq with ia := 0 } : State).ia = 0 := by decide

theorem witness_QueueIsFirstInFirstOut : ∃ t, step { wIrq with ia := 0 } = .next t := exists_next (by decide +kernel)

theorem witness_RfiUndoesInterruptEntry :
    ∃ t, wIrq.mem.wf = true ∧ wIrq.iaq = false ∧ wIrq.irqq = 0x42 :: [0x43] ∧ wIrq.ia ≠ 0 ∧
      wIrq.quiet (wIrq.sp - 1) = true ∧ wIrq.quiet (wIrq.sp - 2) = true ∧ deliverInterrupt wIrq = .ok t ∧
      Operand.inline 0 ≠ .stack ∧ quietOne (.inline 0) t = true := by
  obtain ⟨t, ht⟩ := exists_ok (e := deliverInterrupt wIrq) (by decide +kernel)
  exact ⟨t, by decide +kernel, rfl, rfl, by decide, by decide +kernel, by decide +kernel, ht, by decide, rfl⟩

theorem witness_AluCommonRule :
    let b := Operand.ind .B
    let a := Operand.stack
    (Instr.adx b a, fAdx) ∈ [(Instr.set b a, fSet), (.add b a, fAdd), (.sub b a, fSub), (.mul b a, fMul),
      (.mli b a, fMli), (.div b a, fDiv), (.dvi b a, fDvi), (.mod b a, fMod), (.mdi b a, fMdi), (.and b a, fAnd),
      (.bor b a, fBor), (.xor b a, fXor), (.shr b a, fShr), (.asr b a, fAsr), (.shl b a, fShl), (.adx b a, fAdx),
      (.sbx b a, fSbx)] ∧ (∃ t, exec (.adx b a) wState = .next t) ∧
    (Instr.std b a, (0xffff : Word)) ∈ [(Instr.sti b a, 1), (.std b a, 0xffff)] ∧
    ∃ t, exec (.std b a) wState = .next t :=
  ⟨by simp, exists_next (by decide +kernel), by simp, exists_next (by decide +kernel)⟩

theorem witness_OperandsResolvedBeforeRead : quietPair (.ind .B) .stack wState = true ∧
    ∃ o, operands (.ind .B) .stack wState = .ok o :=
  ⟨by decide +kernel, exists_ok (by decide +kernel)⟩

/-- `[B], POP`: no device watches either operand; the five result statements below assume no more. -/
theorem witness_quietPair : quietPair (.ind .B) .stack wState = true := by decide +kernel

theorem witness_SubMulMliResults : quietPair (.ind .B) .stack wState = true := witness_quietPair

theorem witness_BitwiseResults : quietPair (.ind .B) .stack wState = true := witness_quietPair

theorem witness_ShiftResults : quietPair (.ind .B) .stack wState = true := witness_quietPair

theorem witness_AdxSbxResults : quietPair (.ind .B) .stack wState = true := witness_quietPair

theorem witness_StiStdResults : quietPair (.ind .B) .stack wState = true := witness_quietPair

/-- A zero and a non-zero divisor. -/
theorem witness_DivisionResults :
    quietPair (.ind .B) (.inline 0) wState = true ∧ valA (.ind .B) (.inline 0) wState = 0 ∧
    quietPair (.ind .B) .stack wState = true ∧ valA (.ind .B) .stack wState ≠ 0 := by decide +kernel

theorem witness_DivisionIdentity : (0xffff : Word) ≠ 0 := by decide

theorem witness_SetWritesValueAndClearsEx : quietPair (.ind .B) .stack wState = true ∧
    ∃ t, exec (.set (.ind .B) .stack) wState = .next t :=
  ⟨by decide +kernel, exists_next (by decide +kernel)⟩

theorem witness_AddWritesSumAndCarry : quietPair (.ind .B) .stack wState = true ∧
    ∃ t, exec (.add (.ind .B) .stack) wState = .next t :=
  ⟨by decide +kernel, exists_next (by decide +kernel)⟩

theorem witness_AluFrame :
    let b := Operand.ind .B
    let a := Operand.stack
    (Instr.sti b a) ∈ [Instr.set b a, .add b a, .sub b a, .mul b a, .mli b a, .div b a, .dvi b a, .mod b a, .mdi b a,
      .and b a, .bor b a, .xor b a, .shr b a, .asr b a, .shl b a, .adx b a, .sbx b a, .sti b a, .std b a] ∧
    (∃ t, exec (.sti b a) wState = .next t) ∧ b ≠ .reg .A ∧ b ≠ .sp ∧ b ≠ .pc ∧ quietPair b a wState = true ∧
    (locate b a wState).lb ≠ .mem 0x21 :=
  ⟨by simp, exists_next (by decide +kernel), by decide, by decide, by decide, by decide +kernel, by decide +kernel⟩

/-- Both a true and a false predicate. -/
theorem witness_ConditionalCommonRule :
    let b := Operand.ind .B
    let a := Operand.stack
    (Instr.ifn b a, pIfn) ∈ [(Instr.ifb b a, pIfb), (.ifc b a, pIfc), (.ife b a, pIfe), (.ifn b a, pIfn),
      (.ifg b a, pIfg), (.ifa b a, pIfa), (.ifl b a, pIfl), (.ifu b a, pIfu)] ∧
    (∃ t, exec (.ife (.ind .B) .stack) wState = .next t) ∧ ∃ t, exec (.ifn (.ind .B) .stack) wState = .next t :=
  ⟨by simp, exists_next (by decide +kernel), exists_next (by decide +kernel)⟩

theorem witness_ConditionalResults :
    let b := Operand.ind .B
    let a := Operand.stack
    quietPair b a wState = true ∧
    (Instr.ifl b a, true) ∈ [(Instr.ifb b a, decide (valB b a wState &&& valA b a wState ≠ 0)),
      (.ifc b a, decide (valB b a wState &&& valA b a wState = 0)),
      (.ife b a, decide (valB b a wState = valA b a wState)), (.ifn b a, decide (valB b a wState ≠ valA b a wState)),
      (.ifg b a, (valA b a wState).ult (valB b a wState)), (.ifa b a, (valA b a wState).slt (valB b a wState)),
      (.ifl b a, (valB b a wState).ult (valA b a wState)), (.ifu b a, (valB b a wState).slt (valA b a wState))] := by
  decide +kernel

theorem witness_ConditionalFrame :
    let b := Operand.ind .B
    let a := Operand.stack
    (Instr.ifg b a) ∈ [Instr.ifb b a, .ifc b a, .ife b a, .ifn b a, .ifg b a, .ifa b a, .ifl b a, .ifu b a] ∧
    quietPair b a wState = true ∧ ∃ t, exec (.ifg b a) wState = .next t :=
  ⟨by simp, by decide +kernel, exists_next (by decide +kernel)⟩

theorem witness_JsrPushesAndJumps :
    (Operand.ind Reg.B).wfA = true ∧ quietOne (.ind .B) wState = true ∧
    wState.quiet (wState.sp + spMove .asA (.ind .B) - 1) = true ∧ ∃ t, exec (.jsr (.ind .B)) wState = .next t :=
  ⟨by decide, by decide +kernel, by decide +kernel, exists_next (by decide +kernel)⟩

theorem witness_HcfHalts :
    let s := { at_ 0x10 [(0x10, 0x84e0)] with irqq := [1], iaq := true }
    (Operand.inline 0).wfA = true ∧ quietOne (.inline 0) s = true ∧ s.skip = false ∧ deliverInterrupt s = .ok s ∧
    fetch s = .ok ⟨0x10, 0x84e0, .instr (.hcf (.inline 0)), { s with pc := 0x11 }⟩ ∧
    (∃ t, exec (.hcf (.inline 0)) s = .next t) ∧ ∃ t, step s = .next t :=
  ⟨by decide, rfl, rfl, rfl, rfl, exists_next (by decide +kernel), exists_next (by decide +kernel)⟩

theorem witness_SpecialCommonRule :
    let a := Operand.ind .B
    let s := wState
    (Instr.iag a, fun (o : Single) => writeLoc o.la s.ia o.st) ∈ ([(Instr.int a, fun o => irq o.va o.st),
      (.iag a, fun o => writeLoc o.la s.ia o.st),
      (.ias a, fun o => .ok { o.st with ia := o.va }),
      (.rfi a, fun o => returnFromInterrupt o.st),
      (.iaq a, fun o => .ok { o.st with iaq := o.va != 0 }),
      (.hwn a, fun o => writeLoc o.la (BitVec.ofNat 16 s.devices.length) o.st),
      (.hwq a, fun o => if h : o.va.toNat < s.devices.length
        then .ok (loadDescriptor s.devices[o.va.toNat].descriptor o.st) else .error (.noSuchDevice o.va)),
      (.hwi a, fun o => if h : o.va.toNat < s.devices.length
        then dispatchDevice o.va.toNat s.devices[o.va.toNat] o.st else .error (.noSuchDevice o.va))] :
        List (Instr × (Single → Except Fault State))) ∧
    (∃ t, exec (.iag (.ind .B)) wState = .next t) ∧ (∃ t, exec (.rfi .stack) wState = .next t) ∧
    (∃ t, exec (.hwq (.inline 1)) wState = .next t) ∧ ∃ t, exec (.hwi (.inline 1)) wState = .next t :=
  ⟨.tail _ (.head _), exists_next (by decide +kernel), exists_next (by decide +kernel), exists_next (by decide +kernel),
    exists_next (by decide +kernel)⟩

/-- The two clauses at the boundary: 255 and 256 messages waiting. -/
theorem witness_IntQueuesMessage :
    quietOne (.ind .B) { wState with irqq := List.replicate 255 1 } = true ∧
    ({ wState with irqq := List.replicate 255 1 } : State).irqq.length < 256 ∧
    256 ≤ ({ wState with irqq := List.replicate 256 1 } : State).irqq.length := by decide +kernel

theorem witness_InterruptControlResults : quietOne (.ind .B) wState = true := by decide +kernel

theorem witness_RfiPopsAThenPc : quietOne .stack wState = true ∧
    wState.quiet (wState.sp + spMove .asA .stack) = true ∧ wState.quiet (wState.sp + spMove .asA .stack + 1) = true := by
  decide +kernel

/-- The two clauses of HWQ at the boundary: device 1 of two, and device 2. -/
theorem witness_DeviceEnumerationResults :
    quietOne (.inline 1) wState = true ∧ wState.devices[(val (.inline 1) wState).toNat]? = some t1 ∧
    quietOne (.inline 2) wState = true ∧ wState.devices.length ≤ (val (.inline 2) wState).toNat := by decide +kernel

/-- No device 2; device 1 without the capability; device 0 with it, with room for its message and without. -/
theorem witness_HwiDispatchResults :
    quietOne (.inline 2) hwiState = true ∧ hwiState.devices.length ≤ (val (.inline 2) hwiState).toNat ∧
    hwiState.devices[(val (.inline 1) hwiState).toNat]? = some t1 ∧ t1.interrupt = none ∧
    (∃ d h, ({ hwiState with pc := 1 } : State).devices[(val (.inline 0) hwiState).toNat]? = some d ∧
      d.interrupt = some h ∧
      (h.answer Config.interrupt (hwiState.devState 0, ⟨hwiState.x, hwiState.sp, 1, hwiState.ex⟩, hwiState.mem)).irqs =
        [7] ∧
      hwiState.irqq.length + [(7 : Word)].length ≤ 256 ∧
      256 < ({ hwiState with irqq := List.replicate 256 1 } : State).irqq.length + [(7 : Word)].length) :=
  ⟨rfl, by decide +kernel, rfl, rfl, _, _, rfl, rfl, by decide +kernel, by decide +kernel, by decide +kernel⟩

theorem witness_SpecialFrame :
    quietOne (.ind .B) wState = true ∧ wState.quiet (wState.sp + spMove .asA (.ind .B) - 1) = true ∧
    (∃ t, exec (.jsr (.ind .B)) wState = .next t) ∧ (∃ t, exec (.int (.ind .B)) wState = .next t) ∧
    (∃ t, exec (.hwn (.ind .B)) wState = .next t) ∧ (∃ t, exec (.rfi (.ind .B)) wState = .next t) ∧
    ∃ t, exec (.hwq (.inline 0)) wState = .next t :=
  ⟨by decide +kernel, by decide +kernel, exists_next (by decide +kernel), exists_next (by decide +kernel),
    exists_next (by decide +kernel), exists_next (by decide +kernel), exists_next (by decide +kernel)⟩

/-- An instruction that writes control state, and one that sets `skip`. -/
theorem witness_ControlStateWriters :
    (∃ t, exec (.ias (.ind .B)) wState = .next t) ∧
    ∃ t, exec (.ife (.ind .B) .stack) wState = .next t ∧ t.skip ≠ wState.skip := by
  refine ⟨exists_next (by decide +kernel), ?_⟩
  obtain ⟨t, ht⟩ := exists_next (o := exec (.ife (.ind .B) .stack) wState) (by decide +kernel)
  refine ⟨t, ht, ?_⟩
  have h : (match exec (.ife (.ind .B) .stack) wState with
    | .next u => u.skip
    | .fault _ => false
    | .refused _ => false) = true := by decide +kernel
  rw [ht] at h
  rw [show t.skip = true from h]
  decide

theorem witness_ExWriters : ∃ t, exec (.iag .ex) wState = .next t ∧ t.ex ≠ wState.ex := by
  obtain ⟨t, ht⟩ := exists_next (o := exec (.iag .ex) wState) (by decide +kernel)
  refine ⟨t, ht, ?_⟩
  have h : (match exec (.iag .ex) wState with
    | .next u => u.ex
    | .fault _ => 0
    | .refused _ => 0) = 0x200 := by decide +kernel
  rw [ht] at h
  rw [show t.ex = 0x200 from h]
  decide

theorem witness_StepKeepsInvariant : wState.inv = true ∧ ∃ t, step wState = .next t :=
  ⟨by decide +kernel, exists_next (by decide +kernel)⟩

/-- Construction and a step. -/
theorem witness_ReachableStatesSatisfyInvariant : ∃ s, Reachable s := by
  obtain ⟨s, hs⟩ := exists_next (o := State.construct [0x9801, 0x84e0] [(t0idle, []), (t1, [])]) (by decide +kernel)
  exact ⟨s, .construct hs⟩

theorem witness_RegistryIsFixed : (∀ image devs, Move.step ≠ .reset image devs) ∧ ∃ t, move .step wState = .next t :=
  ⟨fun _ _ h => (by cases h), exists_next (by decide +kernel)⟩

/-- T1 made to tick: it changes its state, writes memory and asks for an interrupt. -/
def wTick : State :=
  { wState with devices := [{ t1 with tick := some ⟨[(([], wState.mem), ⟨[1], [(0x300, 1)], [5]⟩)], 0⟩ }, t1] }

/-- R53: the tick's effect, of a running machine and of a stopped one (log entry 21). -/
theorem test_tick :
    let after := fun (s : State) =>
      { s with dev := [[1], []], mem := [(0x10, 0x9c20), (0x20, 5), (0x300, 1), (0xfffe, 0x777), (0xffff, 8)],
               irqq := [5] }
    tick 0 wTick = .next (after wTick) ∧
    tick 0 { wTick with running := false } = .next (after { wTick with running := false }) := ⟨rfl, rfl⟩

/-- The clauses of the effect at the boundary, 255 and 256 messages waiting; a device without the capability; the
next state, and another device. -/
theorem witness_TickLeavesRegisters :
    (∃ d h, wTick.devices[0]? = some d ∧ d.tick = some h ∧
      (h.answer Config.tick (wTick.devState 0, wTick.mem)).irqs = [5] ∧
      ({ wTick with irqq := List.replicate 255 1 } : State).irqq.length + [(5 : Word)].length ≤ 256 ∧
      ({ wTick with irqq := List.replicate 256 1 } : State).irqq.length ≤ 256 ∧
      256 < ({ wTick with irqq := List.replicate 256 1 } : State).irqq.length + [(5 : Word)].length) ∧
    (∀ d h, wTick.devices[1]? = some d → d.tick ≠ some h) ∧ (∃ t, tick 0 wTick = .next t) ∧ (1 : Nat) ≠ 0 :=
  ⟨⟨_, _, rfl, rfl, rfl, by decide +kernel, by decide +kernel, by decide +kernel⟩,
    fun d h hd => by cases hd; exact fun e => (by cases e), ⟨_, rfl⟩, by decide⟩

/-- A step that emits a diagnostic. -/
theorem witness_CounterAndDiagnosticsAreNeverRead :
    ∃ t, step { wState with mem := [(0x10, 0x0018)], cycles := 4, diags := [⟨1, 2⟩] } = .next t :=
  exists_next (by decide +kernel)

end Sys2Proof.Tests
end

section
/-! The inline literals (R76): which codes they have, and that a write to one is discarded. -/

namespace Sys2Proof

open Machine

/-- An inline literal is read-only (R76): it resolves to a literal, and a write to a literal is discarded (R121). -/
theorem writeLoc_resolve_inline (pos : Pos) (n v : Word) (s : State) :
    writeLoc (resolve pos (.inline n) s).1 v s = .ok s := rfl

/-- The literal of a code of the six-bit field, 0x20 or more, is encodable and has that code. -/
theorem inline_of_code {c : Nat} (h1 : 0x20 ≤ c) (h2 : c < 64) :
    (Operand.inline (w16 ((c : Int) - 0x21))).wfA = true ∧ (Operand.inline (w16 ((c : Int) - 0x21))).code = c := by
  obtain ⟨hwf, hcode, -⟩ := decodeOperand_spec 0 h2
  rw [decodeOperand_inline h1] at hwf hcode
  exact ⟨hwf, hcode⟩

/-- Settles O5: every code from 0x20 on decodes to its literal, and a literal n of -1 to 30 is the one of the code
n + 0x21. -/
theorem inlineLiteralIsCodeMinus33 : Obligations.InlineLiteralIsCodeMinus33 := by
  unfold Obligations.InlineLiteralIsCodeMinus33
  constructor
  · intro c x hc _
    have hdec := decodeOperand_inline hc x
    refine ⟨hdec, fun v s => ?_⟩
    rw [hdec, writeLoc_resolve_inline]
  · intro n hlo hhi
    obtain ⟨c, rfl⟩ : ∃ c : Nat, n = (c : Int) - 0x21 := ⟨(n + 0x21).toNat, by omega⟩
    obtain ⟨hwf, hcode⟩ := inline_of_code (c := c) (by omega) (by omega)
    exact ⟨hwf, by omega⟩

end Sys2Proof
end

section
/-! The operand codes that name a memory cell (R108 to R113, R117). -/

namespace Sys2Proof

open Machine

/-- Integer address arithmetic on a word is word arithmetic: both are modulo 65536 (R42). -/
theorem w16_toNat_add (v : Word) (t : Int) : w16 ((v.toNat : Int) + t) = v + w16 t := by
  rw [w16, BitVec.ofInt_add, BitVec.ofInt_natCast, BitVec.ofNat_toNat, BitVec.setWidth_eq]

@[simp] theorem w16_toNat (v : Word) : w16 (v.toNat : Int) = v := by
  simp [w16]

/-- SP down by one, in integers and in words (R111). -/
theorem w16_toNat_pred (v : Word) : w16 ((v.toNat : Int) - 1) = v - 1 := by
  have h : w16 (-1) = -1 := by decide
  rw [Int.sub_eq_add_neg, w16_toNat_add, h, BitVec.sub_eq_add_neg]

theorem decodeOperand_ind {c : Nat} (h1 : 0x08 ≤ c) (h2 : c ≤ 0x0f) (x : Word) :
    decodeOperand c x = .ind (Reg.ofCode (c - 0x08)) := by
  rw [decodeOperand, if_neg (by omega), if_pos (by omega)]

theorem decodeOperand_indNext {c : Nat} (h1 : 0x10 ≤ c) (h2 : c ≤ 0x17) (x : Word) :
    decodeOperand c x = .indNext (Reg.ofCode (c - 0x10)) x := by
  rw [decodeOperand, if_neg (by omega), if_neg (by omega), if_pos (by omega)]

/-- An operand code below 0x10 takes no extra word (R81). -/
theorem xw_of_lt {c : Nat} (h : c < 0x10) : xw c = 0 := if_neg (by omega)

/-- Settles O15: each code decodes to its operand, and the resolver's word arithmetic is the rules' `w16` of integer
arithmetic. -/
theorem memoryOperands : Obligations.MemoryOperands := by
  unfold Obligations.MemoryOperands
  intro pos x s
  refine ⟨fun c h1 h2 => ?ind, fun c h1 h2 => ?indNext, ⟨?pop, ?push, rfl⟩, ⟨rfl, rfl⟩, ⟨?pick, rfl⟩, ⟨rfl, rfl⟩⟩
  case ind =>
    rw [decodeOperand_ind h1 h2]
    exact ⟨rfl, xw_of_lt (by omega)⟩
  case indNext =>
    rw [decodeOperand_indNext h1 h2, w16_toNat_add, w16_toNat]
    exact ⟨rfl, if_pos (.inl ⟨h1, h2⟩)⟩
  case pop =>
    rw [w16_toNat_add]
    rfl
  case push =>
    rw [w16_toNat_pred]
    rfl
  case pick =>
    rw [w16_toNat_add, w16_toNat]
    rfl

end Sys2Proof
end

section
/-! The stack: PUSH and POP, one after the other (R122, R123). -/

namespace Sys2Proof

open Machine

/-- PUSH is the write to the location that resolving operand b of code 0x18 gives (R111, R122). -/
theorem push_eq_writeLoc_resolve (v : Word) (s : State) :
    push v s = writeLoc (resolve .asB .stack s).1 v (resolve .asB .stack s).2 := rfl

/-- The word pushed is popped, SP is back, and the popped cell keeps the word (R122, R123). -/
theorem pop_push_quiet {v : Word} {s : State} (hq : s.quiet (s.sp - 1) = true) (hm : s.mem.wf = true) :
    (do pop (← push v s)) = .ok (v, s.setMem (s.mem.write (s.sp - 1) v)) := by
  rw [push_quiet hq, ok_bind]
  have hpop := pop_quiet (s := (s.setSp (s.sp - 1)).setMem (s.mem.write (s.sp - 1) v)) hq
  simp only [State.setMem_sp, State.setMem_mem, State.setSp_sp, Memory.read_write_same _ _ hm,
    BitVec.sub_add_cancel] at hpop
  exact hpop

/-- Settles O17: push and pop where no device watches their cell, and their composition. -/
theorem stackDiscipline : Obligations.StackDiscipline := by
  unfold Obligations.StackDiscipline
  exact fun v s => ⟨push_eq_writeLoc_resolve v s, push_quiet, pop_quiet, pop_push_quiet⟩

end Sys2Proof
end

section
/-! The conditional instructions (R180): which predicate each has, and what they do with any devices. -/

namespace Sys2Proof

open Machine

/-- Each conditional of operands b and a with its predicate, of va and vb in that order (R181 to R188). -/
def conditionals (b a : Operand) : List (Instr × (Word → Word → Bool)) :=
  [(.ifb b a, pIfb), (.ifc b a, pIfc), (.ife b a, pIfe), (.ifn b a, pIfn), (.ifg b a, pIfg), (.ifa b a, pIfa),
    (.ifl b a, pIfl), (.ifu b a, pIfu)]

/-- Every conditional executes by the common rule, with its own predicate. -/
theorem exec_of_mem_conditionals {b a : Operand} {i : Instr} {p : Word → Word → Bool}
    (h : (i, p) ∈ conditionals b a) (s : State) : exec i s = finish (condEffect p b a s) := by
  have hall : ∀ q ∈ conditionals b a, exec q.1 s = finish (condEffect q.2 b a s) := by
    simp only [conditionals, List.forall_mem_cons]
    exact ⟨rfl, rfl, rfl, rfl, rfl, rfl, rfl, rfl, List.forall_mem_nil _⟩
  exact hall _ h

/-- The common rule in both directions: it answers exactly where both operands can be read, with `skip` set where the
predicate is false. -/
theorem condEffect_eq_ok {p : Word → Word → Bool} {b a : Operand} {s t : State} :
    condEffect p b a s = .ok t ↔
      ∃ o, operands b a s = .ok o ∧ t = if p o.va o.vb then o.st else o.st.setSkip true := by
  simp only [condEffect, bind_eq_ok, Except.ok.injEq, eq_comm (a := t)]

/-- Settles O41: every conditional executes by the common rule, and that rule's next states are the stated ones. -/
theorem conditionalCommonRule : Obligations.ConditionalCommonRule := by
  unfold Obligations.ConditionalCommonRule
  intro b a s t i p h
  rw [exec_of_mem_conditionals h, finish_eq_next]
  exact condEffect_eq_ok

end Sys2Proof
end

section
/-! The encoding: the decoder and the encoder undo each other, and which words are reserved (R70 to R81). -/

namespace Sys2Proof

open Machine

/-! ### From an instruction to its words and back -/

/-- The three fields of a basic-form first word (R71). -/
theorem fields_firstWord_basic {i : Instr} {b : Operand} (hwf : i.wf = true) (hb : i.opB = some b) :
    fieldA i.firstWord = i.opA.code ∧ fieldB i.firstWord = b.code ∧ fieldO i.firstWord = i.opcode := by
  obtain ⟨ha, hbs⟩ := i.wf_iff.1 hwf
  simp only [Instr.firstWord, hb]
  exact fields_ofNat (Operand.code_lt_64 ha) (Operand.code_lt_32 (hbs b hb)) i.opcode_lt

/-- The three fields of a special-form first word (R71). -/
theorem fields_firstWord_special {i : Instr} (hwf : i.wf = true) (hb : i.opB = none) :
    fieldA i.firstWord = i.opA.code ∧ fieldB i.firstWord = i.opcode ∧ fieldO i.firstWord = 0 := by
  obtain ⟨ha, -⟩ := i.wf_iff.1 hwf
  have h := fields_ofNat (o := 0) (Operand.code_lt_64 ha) i.opcode_lt (by decide)
  simpa only [Instr.firstWord, hb, Nat.add_zero] using h

/-- An operand is decoded from the head of any list that begins with its extra word. -/
theorem decodeOperand_extra_append {o : Operand} (h : o.wfA = true) (rest : List Word) :
    decodeOperand o.code ((o.extra ++ rest).getD 0 0) = o := by
  rcases Operand.extra_cases h with ⟨-, -, hdec⟩ | ⟨x, -, hx, hdec⟩
  · exact hdec _
  · rw [hx]; exact hdec

/-- The word offered to operand b is the first one operand a leaves (R74). -/
theorem getD_after_extra {a : Operand} (h : a.wfA = true) (rest : List Word) :
    (if xw a.code = 1 then (a.extra ++ rest).getD 1 0 else (a.extra ++ rest).getD 0 0) = rest.getD 0 0 := by
  rcases Operand.extra_cases h with ⟨hw, hx, -⟩ | ⟨x, hw, hx, -⟩ <;> simp [hw, hx]

/-- Settles O1: in each form the fields of the first word name the opcode and the operand codes, and each operand finds
its own extra word. -/
theorem decodeEncodeRoundTrip : Obligations.DecodeEncodeRoundTrip := by
  unfold Obligations.DecodeEncodeRoundTrip
  intro i rest hwf
  obtain ⟨ha, hbs⟩ := i.wf_iff.1 hwf
  cases hb : i.opB with
  | none =>
    obtain ⟨hA, hB, hO⟩ := fields_firstWord_special hwf hb
    have hdec := decodeOperand_extra_append ha rest
    simp only [decodeWords, encode, hb, Option.map_none, Option.getD_none, List.append_nil, List.cons_append,
      List.getD_cons_zero, List.getD_cons_succ]
    simp only [decode, hA, hB, hO, hdec, specialInstr_opcode hb, if_true]
  | some b =>
    obtain ⟨hA, hB, hO⟩ := fields_firstWord_basic hwf hb
    obtain ⟨hmap, h0⟩ := basicInstr_opcode hb
    have hdecA := decodeOperand_extra_append ha (b.extra ++ rest)
    have hdecB := decodeOperand_extra_append (Operand.wfA_of_wfB (hbs b hb)) rest
    simp only [decodeWords, encode, hb, Option.map_some, Option.getD_some, List.append_assoc, List.cons_append,
      List.getD_cons_zero, List.getD_cons_succ]
    simp only [decode, hA, hB, hO, h0, hdecA, getD_after_extra ha, hdecB, hmap, if_false]

/-! ### From words to an instruction and back -/

/-- What the decoder answers with an instruction, in special form. -/
theorem decode_special {w x1 x2 : Word} {i : Instr} (h0 : fieldO w = 0) :
    decode w x1 x2 = .instr i ↔ specialInstr (fieldB w) (decodeOperand (fieldA w) x1) = some i := by
  simp only [decode, h0, if_true]
  cases specialInstr (fieldB w) (decodeOperand (fieldA w) x1) <;> simp

/-- What the decoder answers with an instruction, in basic form. -/
theorem decode_basic {w x1 x2 : Word} {i : Instr} (h0 : fieldO w ≠ 0) :
    decode w x1 x2 = .instr i ↔
      basicInstr (fieldO w) (decodeOperand (fieldB w) (if xw (fieldA w) = 1 then x2 else x1))
        (decodeOperand (fieldA w) x1) = some i := by
  simp only [decode, h0, if_false]
  cases basicInstr (fieldO w) (decodeOperand (fieldB w) (if xw (fieldA w) = 1 then x2 else x1))
    (decodeOperand (fieldA w) x1) <;> simp

/-- The extra words of operand a and then of operand b are the first ones after the first word (R74, R81). -/
theorem take_extra {m n : Nat} (hm : m ≤ 1) (hn : n ≤ 1) (w x1 x2 : Word) :
    w :: ((if m = 1 then [x1] else []) ++ if n = 1 then [if m = 1 then x2 else x1] else []) =
      [w, x1, x2].take (1 + (m + n)) := by
  interval_cases m <;> interval_cases n <;> rfl

/-- Settles O2: a decoded instruction has the opcode and the operand codes that stand in the first word, and its
operands hold the extra words that stand after it. -/
theorem encodeDecodeExact : Obligations.EncodeDecodeExact := by
  unfold Obligations.EncodeDecodeExact
  intro w x1 x2 i h
  obtain ⟨hwfA, hcodeA, hextraA⟩ := decodeOperand_spec x1 (fieldA_lt w)
  have hfields := ofNat_fields w
  by_cases h0 : fieldO w = 0
  · obtain ⟨hop, hb, ha⟩ := specialInstr_eq_some ((decode_special h0).1 h)
    refine ⟨i.wf_iff.2 ⟨ha ▸ hwfA, by simp [hb]⟩, ?_⟩
    have hfirst : i.firstWord = w := by
      simp only [Instr.firstWord, hb, ha, hop, hcodeA]
      rwa [h0, Nat.add_zero] at hfields
    have htake := take_extra (xw_le_one (fieldA w)) (Nat.zero_le 1) w x1 x2
    simpa [encode, hfirst, hb, ha, hextraA, wordLength, extraWords, h0] using htake
  · obtain ⟨hop, hb, ha⟩ := basicInstr_eq_some ((decode_basic h0).1 h)
    obtain ⟨-, hcodeB, hextraB⟩ :=
      decodeOperand_spec (if xw (fieldA w) = 1 then x2 else x1) (Nat.lt_trans (fieldB_lt w) (by decide))
    refine ⟨i.wf_iff.2 ⟨ha ▸ hwfA, ?_⟩, ?_⟩
    · intro b hb'
      obtain rfl : _ = b := Option.some.inj (hb.symm.trans hb')
      exact decodeOperand_wfB _ (fieldB_lt w)
    · have hfirst : i.firstWord = w := by
        simp only [Instr.firstWord, hb, ha, hop, hcodeA, hcodeB]
        exact hfields
      have htake := take_extra (xw_le_one (fieldA w)) (xw_le_one (fieldB w)) w x1 x2
      simpa [encode, hfirst, hb, ha, hextraA, hextraB, wordLength, extraWords, h0] using htake

/-- The length of a decoded instruction's encoding is that of its first word (R81). -/
theorem length_encode_of_decode {w x1 x2 : Word} {i : Instr} (h : decode w x1 x2 = .instr i) :
    (encode i).length = wordLength w := by
  obtain ⟨-, henc⟩ := encodeDecodeExact w x1 x2 i h
  have hA := xw_le_one (fieldA w)
  have hB := xw_le_one (fieldB w)
  have hlen : wordLength w ≤ 3 := by unfold wordLength extraWords; split <;> omega
  simp [henc, hlen]

/-! ### Reserved words (R80) -/

/-- The special opcodes that name an instruction (R79). -/
theorem specialInstr_isSome {s : Nat} (h : s < 32) (a : Operand) :
    (specialInstr s a).isSome = [0x01, 0x07, 0x08, 0x09, 0x0a, 0x0b, 0x0c, 0x10, 0x11, 0x12].contains s := by
  interval_cases s <;> rfl

/-- The basic opcodes that name an instruction (R78): 0 marks the special form, the others left out are reserved. -/
theorem basicInstr_isSome {o : Nat} (h : o < 32) (b a : Operand) :
    (basicInstr o b a).isSome = !([0x00, 0x18, 0x19, 0x1c, 0x1d].contains o) := by
  interval_cases o <;> rfl

/-- Settles O3: in each form, the opcodes the map knows are those the list of reserved ones leaves out. -/
theorem reservedWordsExactly : Obligations.ReservedWordsExactly := by
  unfold Obligations.ReservedWordsExactly
  intro w x1 x2
  by_cases h0 : fieldO w = 0
  · simp only [decode_special h0, ← Option.isSome_iff_exists, specialInstr_isSome (fieldB_lt w), reservedWord, h0,
      if_true, Bool.not_eq_false']
  · have h0' : (fieldO w == 0) = false := beq_false_of_ne h0
    simp only [decode_basic h0, ← Option.isSome_iff_exists, basicInstr_isSome (fieldO_lt w), reservedWord, h0,
      if_false, Bool.not_eq_true', List.contains_cons, h0', Bool.false_or]

/-- Settles O4: each word is evaluated. -/
theorem writtenWordsDecode : Obligations.WrittenWordsDecode := by
  unfold Obligations.WrittenWordsDecode
  decide

end Sys2Proof
end

section
/-! The raw memory: its canonical form is one (log entry 1), and where construction puts an image (R262). -/

namespace Sys2Proof

open Machine

/-! ### The canonical form -/

namespace Memory

theorem wfFrom_cons {lo k : Nat} {w : Word} {m : Memory} :
    Memory.wfFrom lo ((k, w) :: m) = true ↔ lo ≤ k ∧ k < Config.memWords ∧ w ≠ 0 ∧ m.wfFrom (k + 1) = true := by
  simp only [Memory.wfFrom, Bool.and_eq_true, decide_eq_true_eq, and_assoc]

@[simp] theorem lookup_cons_same (k : Nat) (w : Word) (m : Memory) : Memory.lookup ((k, w) :: m) k = w := if_pos rfl

theorem lookup_cons_ne {k a : Nat} (w : Word) (m : Memory) (h : k ≠ a) :
    Memory.lookup ((k, w) :: m) a = m.lookup a := if_neg h

/-- The first address listed is the least one that does not read as 0. -/
theorem le_of_lookup_ne_zero {lo k : Nat} {w : Word} {m : Memory} (h : Memory.wfFrom lo ((k, w) :: m) = true)
    {a : Nat} (ha : Memory.lookup ((k, w) :: m) a ≠ 0) : k ≤ a := by
  obtain ⟨-, hk, hw, hm⟩ := wfFrom_cons.1 h
  by_contra hlt
  exact ha (lookup_of_lt (lo := k) (wfFrom_cons.2 ⟨Nat.le_refl k, hk, hw, hm⟩) (by omega))

/-- Canonical lists of cells that read alike at every address are equal, cell by cell. -/
theorem eq_of_lookup_eq {lo : Nat} {m n : Memory} (hm : m.wfFrom lo = true) (hn : n.wfFrom lo = true)
    (h : ∀ a, a < Config.memWords → m.lookup a = n.lookup a) : m = n := by
  induction m generalizing lo n with
  | nil =>
    match n with
    | [] => rfl
    | (k, w) :: n =>
      obtain ⟨-, hk, hw, -⟩ := wfFrom_cons.1 hn
      exact absurd ((h k hk).trans (lookup_cons_same k w n)).symm hw
  | cons c m ih =>
    obtain ⟨k, w⟩ := c
    obtain ⟨hlo, hk, hw, htail⟩ := wfFrom_cons.1 hm
    match n with
    | [] => exact absurd ((lookup_cons_same k w m).symm.trans (h k hk)) hw
    | (k', w') :: n =>
      obtain ⟨hlo', hk', hw', htail'⟩ := wfFrom_cons.1 hn
      have hle : k' ≤ k := le_of_lookup_ne_zero hn (by rw [← h k hk, lookup_cons_same]; exact hw)
      have hge : k ≤ k' := le_of_lookup_ne_zero hm (by rw [h k' hk', lookup_cons_same]; exact hw')
      obtain rfl : k = k' := Nat.le_antisymm hge hle
      obtain rfl : w = w' := by simpa using h k hk
      congr 1
      refine ih htail htail' fun a ha => ?_
      by_cases hak : a < k + 1
      · rw [lookup_of_lt htail hak, lookup_of_lt htail' hak]
      · have hne : k ≠ a := by omega
        simpa only [lookup_cons_ne _ _ hne] using h a ha

end Memory

/-- Settles O8: a raw read after a raw write. -/
theorem memoryReadAfterWrite : Obligations.MemoryReadAfterWrite := by
  unfold Obligations.MemoryReadAfterWrite
  intro m a b v hm
  split
  case isTrue h => rw [h, Memory.read_write_same a v hm]
  case isFalse h => rw [Memory.read_write_ne m v h]

/-- Settles O9: the induction over both lists, which begin with the same cell. -/
theorem canonicalMemoriesAreEqual : Obligations.CanonicalMemoriesAreEqual := by
  unfold Obligations.CanonicalMemoriesAreEqual
  intro m n hm hn h
  refine Memory.eq_of_lookup_eq hm hn fun a ha => ?_
  have hread := h (BitVec.ofNat 16 a)
  rwa [Memory.read, Memory.read, BitVec.toNat_ofNat, Nat.mod_eq_of_lt (show a < 2 ^ 16 from ha)] at hread

/-! ### Construction -/

/-- The cells of an image that begins at address `k`. -/
def imageCells : Nat → List Word → List (Word × Word)
  | _, [] => []
  | k, v :: vs => (BitVec.ofNat 16 k, v) :: imageCells (k + 1) vs

theorem imageCells_eq (k : Nat) (image : List Word) :
    imageCells k image = ((List.range' k image.length).zip image).map (fun c => (BitVec.ofNat 16 c.1, c.2)) := by
  induction image generalizing k with
  | nil => rfl
  | cons v vs ih => simp [imageCells, ih, List.range'_succ]

theorem loadImage_eq (image : List Word) (m : Memory) : loadImage image m = m.writeAll (imageCells 0 image) := by
  rw [loadImage, imageCells_eq, List.range_eq_range']

/-- An image leaves the cells outside its own alone. -/
theorem read_imageCells_outside {k : Nat} {image : List Word} {m : Memory} {a : Word}
    (hk : k + image.length ≤ 65536) (ha : a.toNat < k ∨ k + image.length ≤ a.toNat) :
    (m.writeAll (imageCells k image)).read a = m.read a := by
  induction image generalizing k m with
  | nil => rfl
  | cons v vs ih =>
    simp only [List.length_cons] at hk ha
    have hne : a ≠ BitVec.ofNat 16 k := by
      rintro rfl
      rw [BitVec.toNat_ofNat] at ha
      omega
    rw [imageCells, Memory.writeAll, ih (by omega) (by omega), Memory.read_write_ne m v hne]

/-- An image stands at its own cells, in order. -/
theorem read_imageCells_inside {k i : Nat} {image : List Word} {m : Memory} (hm : m.wf = true)
    (hk : k + image.length ≤ 65536) (hi : i < image.length) :
    (m.writeAll (imageCells k image)).read (BitVec.ofNat 16 (k + i)) = image[i] := by
  induction image generalizing k i m with
  | nil => cases hi
  | cons v vs ih =>
    simp only [List.length_cons] at hk hi
    rw [imageCells, Memory.writeAll]
    match i with
    | 0 =>
      rw [read_imageCells_outside (by omega) (.inl _), Nat.add_zero, Memory.read_write_same _ _ hm]
      · rfl
      · rw [BitVec.toNat_ofNat]; omega
    | i + 1 =>
      have hnext : k + (i + 1) = k + 1 + i := by omega
      rw [hnext, ih (Memory.wf_write _ _ hm) (by omega) (by omega)]
      rfl

/-- What construction answers with a machine: each refusal's test failed, and the machine is the reset one with the
image and the devices (R260 to R262). -/
theorem construct_eq_next {image : List Word} {devs : List (Device × DevState)} {s : State} :
    State.construct image devs = .next s ↔
      image.length ≤ Config.memWords ∧ devs.length ≤ Config.maxDevices ∧ devs.all (fun d => d.1.rangeOk) = true ∧
        s = { State.reset with
          mem := loadImage image [], dev := devs.map Prod.snd, devices := devs.map Prod.fst } := by
  unfold State.construct
  split
  case isTrue h => exact iff_of_false nofun fun ⟨hi, _⟩ => Nat.not_lt.2 hi h
  case isFalse hi =>
    split
    case isTrue h => exact iff_of_false nofun fun ⟨_, hd, _⟩ => Nat.not_lt.2 hd h
    case isFalse hd =>
      split
      case isTrue hr =>
        rw [Host.Outcome.next.injEq, eq_comm (b := s)]
        exact ⟨fun h => ⟨Nat.not_lt.1 hi, Nat.not_lt.1 hd, hr, h⟩, fun ⟨_, _, _, h⟩ => h⟩
      case isFalse hr => exact iff_of_false nofun fun ⟨_, _, h, _⟩ => hr h

/-- Settles O6: each field is evaluated. -/
theorem resetStateValues : Obligations.ResetStateValues := by
  unfold Obligations.ResetStateValues
  refine ⟨fun r => ?_, rfl, rfl, rfl, rfl, rfl, rfl, rfl, rfl, rfl, Memory.read_nil, rfl, rfl, rfl, rfl⟩
  cases r <;> rfl

/-- Settles O7: the image's cells are written one after the other, none twice. -/
theorem constructLoadsImage : Obligations.ConstructLoadsImage := by
  unfold Obligations.ConstructLoadsImage
  refine ⟨fun image devs s h => ?_, fun image devs h => if_pos h⟩
  obtain ⟨hlen, -, -, rfl⟩ := construct_eq_next.1 h
  have hfit : 0 + image.length ≤ 65536 := by simpa [Config.memWords] using hlen
  refine ⟨fun i hi => ?_, fun i hi hi' => ?_, rfl⟩
  · simpa only [loadImage_eq, Nat.zero_add] using read_imageCells_inside Memory.wf_nil hfit hi
  · have hout : image.length ≤ (BitVec.ofNat 16 i).toNat := by rwa [BitVec.toNat_ofNat, Nat.mod_eq_of_lt hi']
    rw [loadImage_eq, read_imageCells_outside hfit (.inr (by omega)), Memory.read_nil]

end Sys2Proof
end

section
/-! Accesses and notifications (R45 to R52): what the devices may change, whom an access notifies, and in what order. -/

namespace Sys2Proof

open Machine

/-- A state with the devices' share of it replaced: memory, their own states, the queue. -/
def Machine.State.withEnv (s : State) (m : Memory) (d : List DevState) (q : List Word) : State :=
  { s with mem := m, dev := d, irqq := q }

/-- The devices' part in a step, as one update: memory, their own states, and messages at the queue's tail. -/
theorem envStep_iff {s t : State} : s.EnvStep t ↔ ∃ m d q, t = s.withEnv m d (s.irqq ++ q) := by
  constructor
  · rintro ⟨hx, hsp, hpc, hex, hia, ⟨q, hq⟩, hiaq, hskip, hrun, hcyc, hdev, hdiag⟩
    obtain ⟨⟩ := t
    simp only at *
    subst_vars
    exact ⟨_, _, q, rfl⟩
  · rintro ⟨m, d, q, rfl⟩
    exact ⟨rfl, rfl, rfl, rfl, rfl, List.prefix_append _ _, rfl, rfl, rfl, rfl, rfl, rfl⟩

/-- What the devices may change does not depend on what memory held before. -/
theorem Machine.State.EnvStep.of_setMem {s t : State} {m : Memory} (h : (s.setMem m).EnvStep t) : s.EnvStep t := by
  obtain ⟨m', d, q, rfl⟩ := envStep_iff.1 h
  exact envStep_iff.2 ⟨m', d, q, rfl⟩

/-- An update that neither reads nor writes the devices' share carries their part along. -/
theorem Machine.State.EnvStep.update {f : State → State} {s t : State} (h : s.EnvStep t)
    (hf : ∀ (u : State) m d q, f (u.withEnv m d q) = (f u).withEnv m d q) : (f s).EnvStep (f t) := by
  obtain ⟨m, d, q, rfl⟩ := envStep_iff.1 h
  have hq := congrArg State.irqq (hf s s.mem s.dev s.irqq)
  have hq' : (f s).irqq = s.irqq := hq
  rw [hf]
  exact envStep_iff.2 ⟨m, d, q, by rw [hq']⟩

/-- Settles O10: an address no device claims is read and written raw. -/
theorem unclaimedAccessHasNoSideEffect : Obligations.UnclaimedAccessHasNoSideEffect := by
  unfold Obligations.UnclaimedAccessHasNoSideEffect
  intro a v s hq
  refine ⟨memRead_quiet hq, memWrite_quiet hq, fun hm => ?_⟩
  have hread := memRead_quiet (s := s.setMem (s.mem.write a v)) hq
  rwa [State.setMem_mem, Memory.read_write_same a v hm] at hread

/-- Settles O11: the devices change what the environment may change. -/
theorem notificationsLeaveRegisters : Obligations.NotificationsLeaveRegisters := by
  unfold Obligations.NotificationsLeaveRegisters
  refine ⟨fun a s r h => ?_, fun a v s t h => (memWrite_ok h).1.of_setMem⟩
  obtain ⟨hval, henv, -⟩ := memRead_ok h
  exact ⟨hval, henv⟩

/-- Settles O13: the store is raw, and the fetch reads the cell it stored to. -/
theorem storeSeenByNextFetch : Obligations.StoreSeenByNextFetch := by
  unfold Obligations.StoreSeenByNextFetch
  intro v s t hm hq h
  obtain rfl : s.setMem (s.mem.write s.pc v) = t := Except.ok.inj ((memWrite_quiet hq).symm.trans h)
  have hfetch := nextWord_quiet (s := s.setMem (s.mem.write s.pc v)) hq
  rwa [State.setMem_pc, State.setMem_mem, Memory.read_write_same _ _ hm] at hfetch

/-! ### Whom an access notifies (R45, R46, R49, R51) -/

/-- The number and the reaction function of a device that is to be notified of an access. -/
def listener (acc : Access) (a : Word) (c : Device × Nat) : Option (Nat × Handler (DevState × Word × Word) Reaction) :=
  if c.1.claims a then (c.1.onAccess acc).map (fun h => (c.2, h)) else none

theorem listeners_eq (s : State) (acc : Access) (a : Word) :
    s.listeners acc a = s.devices.zipIdx.filterMap (listener acc a) := by
  unfold State.listeners
  congr 1
  funext c
  unfold listener Device.claims
  cases c.1.range with
  | none => rfl
  | some r =>
    simp only [decide_eq_true_eq]
    cases acc <;> rfl

/-- A listener's reaction takes effect, from the state the device is in when its turn comes (D24). -/
def hear (acc : Access) (a v : Word) (u : State) (c : Nat × Handler (DevState × Word × Word) Reaction) :
    Except Fault State :=
  react c.1 (c.2.answer acc.free (u.devState c.1, a, v)) u

/-- Notifying one device is hearing it, if it is a listener. -/
theorem notifyOne_eq {acc : Access} {a v : Word} {k : Nat} {d : Device} {s : State} (hd : s.devices[k]? = some d) :
    notifyOne acc a v k s = (listener acc a (d, k)).toList.foldlM (hear acc a v) s := by
  simp only [notifyOne, hd, Device.reaction, listener]
  cases d.claims a with
  | false => rfl
  | true =>
    cases d.onAccess acc with
    | none => rfl
    | some h => exact (bind_pure _).symm

/-- Notifying a stretch of the registry is hearing its listeners in order: no reaction changes the registry. -/
theorem notify_range'_eq {acc : Access} {a v : Word} {ds : List Device} {k : Nat} {s : State}
    (h : ∀ j, (hj : j < ds.length) → s.devices[k + j]? = some ds[j]) :
    notify acc a v (List.range' k ds.length) s =
      ((ds.zipIdx k).filterMap (listener acc a)).foldlM (hear acc a v) s := by
  induction ds generalizing k s with
  | nil => rfl
  | cons d ds ih =>
    have hhead : s.devices[k]? = some d := h 0 (by simp)
    have hfold : (((d :: ds).zipIdx k).filterMap (listener acc a)).foldlM (hear acc a v) s =
        (do
          let u ← notifyOne acc a v k s
          ((ds.zipIdx (k + 1)).filterMap (listener acc a)).foldlM (hear acc a v) u) := by
      rw [notifyOne_eq hhead, ← List.foldlM_append, List.zipIdx_cons, List.filterMap_cons]
      cases listener acc a (d, k) <;> rfl
    rw [hfold, List.length_cons, List.range'_succ, notify]
    cases hone : notifyOne acc a v k s with
    | error f => rfl
    | ok u =>
      refine ih fun j hj => ?_
      have hdev : u.devices = s.devices := (notifyOne_env hone).1.devices
      rw [hdev, Nat.add_assoc, Nat.add_comm 1]
      exact h (j + 1) (by simpa using hj)

/-- A notification of an access is its listeners heard in registry order. -/
theorem notifyAll_eq (acc : Access) (a v : Word) (s : State) :
    notifyAll acc a v s = (s.listeners acc a).foldlM (hear acc a v) s := by
  rw [notifyAll, listeners_eq, List.range_eq_range']
  exact notify_range'_eq fun j hj => by simp [hj]

/-- Two devices that both claim the address and both listen are heard one after the other, each from its own state. -/
theorem notifyAll_pair {acc : Access} {a v : Word} {s : State} {d e : Device}
    {h k : Handler (DevState × Word × Word) Reaction} {p q : DevState} (hdevs : s.devices = [d, e])
    (hdev : s.dev = [p, q]) (hd : d.claims a = true) (he : e.claims a = true) (hh : d.onAccess acc = some h)
    (hk : e.onAccess acc = some k) :
    notifyAll acc a v s =
      (do react 1 (k.answer acc.free (q, a, v)) (← react 0 (h.answer acc.free (p, a, v)) s)) := by
  have hlist : s.listeners acc a = [(0, h), (1, k)] := by
    simp [listeners_eq, hdevs, List.zipIdx, listener, hd, he, hh, hk]
  have hp : s.devState 0 = p := by simp [State.devState, hdev]
  rw [notifyAll_eq, hlist, List.foldlM_cons, hear, hp]
  cases hreact : react 0 (h.answer acc.free (p, a, v)) s with
  | error f => rfl
  | ok u =>
    obtain ⟨-, hu⟩ := react_eq_ok.1 hreact
    have hq : u.devState 1 = q := by simp [hu, State.devState, hdev]
    rw [ok_bind, ok_bind, List.foldlM_cons, hear, hq]
    exact bind_pure _

/-- Settles O12: the registry is gone through once, device 0 first. -/
theorem overlappingClaimsInRegistryOrder : Obligations.OverlappingClaimsInRegistryOrder := by
  unfold Obligations.OverlappingClaimsInRegistryOrder
  intro a v s
  refine ⟨?_, ?_, rfl, rfl, rfl, fun d e h k p q hdevs hdev hd he => ⟨fun hh hk => ?_, fun hh hk => ?_⟩⟩
  · rw [memRead, notifyAll_eq]
    rfl
  · rw [memWrite, notifyAll_eq]
    rfl
  · exact notifyAll_pair (s := s.setMem (s.mem.write a v)) hdevs hdev hd he hh hk
  · rw [memRead, notifyAll_pair (acc := .get) hdevs hdev hd he hh hk, bind_assoc]
    rfl

end Sys2Proof
end

section
/-! What an instruction can do, said once: the core's own part of it, and the devices' part as they are notified. -/

namespace Sys2Proof

open Machine Machine.State

/-! ### The instructions by their common rule -/

/-- Each ALU instruction of operands b and a that follows R140 as it stands, with its function. -/
def alus (b a : Operand) : List (Instr × AluFn) :=
  [(.set b a, fSet), (.add b a, fAdd), (.sub b a, fSub), (.mul b a, fMul), (.mli b a, fMli), (.div b a, fDiv),
    (.dvi b a, fDvi), (.mod b a, fMod), (.mdi b a, fMdi), (.and b a, fAnd), (.bor b a, fBor), (.xor b a, fXor),
    (.shr b a, fShr), (.asr b a, fAsr), (.shl b a, fShl), (.adx b a, fAdx), (.sbx b a, fSbx)]

/-- STI and STD, which set and then move I and J, with the distance (R158, R159). -/
def indexMoves (b a : Operand) : List (Instr × Word) := [(.sti b a, 1), (.std b a, -1)]

/-- The ten special instructions (R200). -/
def specials (a : Operand) : List Instr :=
  [.jsr a, .hcf a, .int a, .iag a, .ias a, .rfi a, .iaq a, .hwn a, .hwq a, .hwi a]

theorem exec_of_mem_alus {b a : Operand} {i : Instr} {f : AluFn} (h : (i, f) ∈ alus b a) (s : State) :
    exec i s = finish (aluEffect f b a s) := by
  have hall : ∀ q ∈ alus b a, exec q.1 s = finish (aluEffect q.2 b a s) := by
    simp only [alus, List.forall_mem_cons]
    exact ⟨rfl, rfl, rfl, rfl, rfl, rfl, rfl, rfl, rfl, rfl, rfl, rfl, rfl, rfl, rfl, rfl, rfl, List.forall_mem_nil _⟩
  exact hall _ h

theorem exec_of_mem_indexMoves {b a : Operand} {i : Instr} {d : Word} (h : (i, d) ∈ indexMoves b a) (s : State) :
    exec i s = finish (do let t ← aluEffect fSet b a s; .ok (stepIndexes d t)) := by
  have hall : ∀ q ∈ indexMoves b a,
      exec q.1 s = finish (do let t ← aluEffect fSet b a s; .ok (stepIndexes q.2 t)) := by
    simp only [indexMoves, List.forall_mem_cons]
    exact ⟨rfl, rfl, List.forall_mem_nil _⟩
  exact hall _ h

/-- The 37 instructions are the 17 ALU instructions of the common rule, the two that move I and J, the 8 conditionals
and the 10 special ones. -/
theorem instr_cases (i : Instr) :
    (∃ b a f, (i, f) ∈ alus b a) ∨ (∃ b a d, (i, d) ∈ indexMoves b a) ∨ (∃ b a p, (i, p) ∈ conditionals b a) ∨
      ∃ a, i ∈ specials a := by
  cases i <;> simp [alus, indexMoves, conditionals, specials]

/-! ### What the devices leave alone -/

theorem operands_env {b a : Operand} {s : State} {o : Basic} (h : operands b a s = .ok o) :
    (s.setSp (s.sp + spMove .asA a + spMove .asB b)).EnvStep o.st := by
  obtain ⟨-, -, -, henv, -⟩ := operands_ok h
  exact henv

theorem operand_env {a : Operand} {s : State} {o : Single} (h : operand a s = .ok o) :
    (s.setSp (s.sp + spMove .asA a)).EnvStep o.st := by
  obtain ⟨-, -, henv, -⟩ := operand_ok h
  exact henv

/-- What no register update and no device changes: the control bits, the counter, the registry and the diagnostics, and
the messages that wait. -/
structure SameFrame (s t : State) : Prop extends State.SameControl s t, State.SameEngine s t

theorem SameFrame.trans {s u t : State} (h : SameFrame s u) (k : SameFrame u t) : SameFrame s t :=
  ⟨⟨k.ia.trans h.ia, k.iaq.trans h.iaq, k.skip.trans h.skip, k.running.trans h.running⟩,
    ⟨k.cycles.trans h.cycles, k.devices.trans h.devices, k.diags.trans h.diags, h.irqq.trans k.irqq⟩⟩

theorem SameFrame.env {s u t : State} (h : SameFrame s u) (k : u.EnvStep t) : SameFrame s t :=
  h.trans ⟨⟨k.ia, k.iaq, k.skip, k.running⟩, ⟨k.cycles, k.devices, k.diags, k.irqq⟩⟩

/-- The register file is no part of it. -/
theorem SameFrame.setRegFile (s : State) (f : RegFile) : SameFrame s (s.setRegFile f) :=
  ⟨⟨rfl, rfl, rfl, rfl⟩, ⟨rfl, rfl, rfl, List.prefix_refl _⟩⟩

theorem SameFrame.pokeLoc (l : Loc) (v : Word) (s : State) : SameFrame s (pokeLoc l v s) := by
  obtain ⟨-, -, -, hia, hirqq, hiaq, hskip, hrun, hcyc, -, hdev, hdiag⟩ := pokeLoc_other l v s
  exact ⟨⟨hia, hiaq, hskip, hrun⟩, ⟨hcyc, hdev, hdiag, hirqq ▸ List.prefix_refl _⟩⟩

theorem SameFrame.aluState (b a : Operand) (s : State) (r x : Word) : SameFrame s (aluState b a s r x) := by
  have hst : SameFrame s (locate b a s).st := by rw [locate_state]; exact .setRegFile s ⟨s.x, _, s.pc, s.ex⟩
  exact (hst.trans (.pokeLoc _ r _)).trans (.setRegFile _ ⟨_, _, _, x⟩)

/-! ### The special instructions, with any devices -/

section Special

variable {a : Operand} {s t : State}

theorem push_env {v : Word} (h : push v s = .ok t) : (s.setSp (s.sp - 1)).EnvStep t ∧ Keeps s t :=
  ⟨(push_ok h).1.of_setMem, (push_ok h).2⟩

/-- An instruction with one operand reads it, and then its own effect `e` answers. -/
theorem special_next {i : Instr} {e : Single → Except Fault State} (hi : exec i s = finish (operand a s >>= e))
    (h : exec i s = .next t) :
    ∃ o, o.la = (resolve .asA a s).1 ∧ o.va = val a s ∧ (s.setSp (s.sp + spMove .asA a)).EnvStep o.st ∧ Keeps s o.st ∧
      e o = .ok t := by
  rw [hi, finish_eq_next] at h
  obtain ⟨o, ho, he⟩ := bind_eq_ok.1 h
  obtain ⟨hla, hva, henv, hk⟩ := operand_ok ho
  exact ⟨o, hla, hva, henv, hk, he⟩

theorem jsr_next (h : exec (.jsr a) s = .next t) :
    ((s.setSp (s.sp + spMove .asA a - 1)).setPc (val a s)).EnvStep t ∧ Keeps s t := by
  obtain ⟨o, -, hva, henv, hk, he⟩ := special_next rfl h
  obtain ⟨u, hu, he⟩ := bind_eq_ok.1 he
  cases he
  obtain ⟨penv, pk⟩ := push_env hu
  have hsp : o.st.sp = s.sp + spMove .asA a := henv.sp
  rw [hsp] at penv
  rw [hva]
  have henv' := henv.update (f := (·.setSp (s.sp + spMove .asA a - 1))) fun _ _ _ _ => rfl
  exact ⟨(henv'.trans penv).update (f := (·.setPc (val a s))) fun _ _ _ _ => rfl,
    hk.trans (pk.trans (.of_eq rfl rfl rfl rfl))⟩

theorem hcf_next (h : exec (.hcf a) s = .next t) :
    ((s.setSp (s.sp + spMove .asA a)).setRunning false).EnvStep t ∧ Keeps s t := by
  obtain ⟨o, -, -, henv, hk, he⟩ := special_next rfl h
  cases he
  exact ⟨henv.update (f := (·.setRunning false)) fun _ _ _ _ => rfl, hk.trans (.of_eq rfl rfl rfl rfl)⟩

theorem int_next (h : exec (.int a) s = .next t) : (s.setSp (s.sp + spMove .asA a)).EnvStep t ∧ Keeps s t := by
  obtain ⟨o, -, -, henv, hk, he⟩ := special_next rfl h
  obtain ⟨hroom, rfl⟩ := irq_eq_ok.1 he
  refine ⟨henv.trans (envStep_iff.2 ⟨_, _, [o.va], rfl⟩), hk.trans ⟨id, fun _ => ?_, rfl, rfl⟩⟩
  rw [State.setIrqq_irqq, List.length_append]
  exact hroom

theorem ias_next (h : exec (.ias a) s = .next t) :
    ((s.setSp (s.sp + spMove .asA a)).setIa (val a s)).EnvStep t ∧ Keeps s t := by
  obtain ⟨o, -, hva, henv, hk, he⟩ := special_next rfl h
  cases he
  rw [hva]
  exact ⟨henv.update (f := (·.setIa (val a s))) fun _ _ _ _ => rfl, hk.trans (.of_eq rfl rfl rfl rfl)⟩

theorem iaq_next (h : exec (.iaq a) s = .next t) :
    ((s.setSp (s.sp + spMove .asA a)).setIaq (decide (val a s ≠ 0))).EnvStep t ∧ Keeps s t := by
  obtain ⟨o, -, hva, henv, hk, he⟩ := special_next rfl h
  cases he
  rw [hva]
  exact ⟨henv.update (f := (·.setIaq (decide (val a s ≠ 0)))) fun _ _ _ _ => rfl,
    hk.trans (.of_eq rfl rfl rfl rfl)⟩

/-- IAG and HWN write a word of the machine's own, here `v`, to their operand's location. -/
theorem write_operand_next {i : Instr} {v : Word} {w : State → Word}
    (hi : exec i s = finish (operand a s >>= fun o => writeLoc o.la (w o.st) o.st))
    (hw : ∀ u, (s.setSp (s.sp + spMove .asA a)).EnvStep u → w u = v) (h : exec i s = .next t) :
    (pokeLoc (resolve .asA a s).1 v (s.setSp (s.sp + spMove .asA a))).EnvStep t ∧ Keeps s t := by
  obtain ⟨o, hla, -, henv, hk, he⟩ := special_next hi h
  rw [hla, hw o.st henv] at he
  obtain ⟨wenv, wk⟩ := writeLoc_ok he
  exact ⟨(pokeLoc_env henv _ v).trans wenv, hk.trans wk⟩

theorem iag_next (h : exec (.iag a) s = .next t) :
    (pokeLoc (resolve .asA a s).1 s.ia (s.setSp (s.sp + spMove .asA a))).EnvStep t ∧ Keeps s t :=
  write_operand_next (w := State.ia) rfl (fun _ henv => henv.ia) h

theorem hwn_next (h : exec (.hwn a) s = .next t) :
    (pokeLoc (resolve .asA a s).1 (BitVec.ofNat 16 s.devices.length) (s.setSp (s.sp + spMove .asA a))).EnvStep t ∧
      Keeps s t :=
  write_operand_next (w := fun u => BitVec.ofNat 16 u.devices.length) rfl
    (fun _ henv => by rw [henv.devices]; rfl) h

theorem rfi_next (h : exec (.rfi a) s = .next t) :
    ∃ v w, ((((s.setIaq false).setReg .A v).setSp (s.sp + spMove .asA a + 2)).setPc w).EnvStep t ∧ Keeps s t := by
  obtain ⟨o, -, -, henv, hk, he⟩ := special_next rfl h
  obtain ⟨hx, hsp, hex, hia, hiaq, hskip, hrun, hcyc, hdiag, hirqq, rk⟩ := returnFromInterrupt_ok he
  have hx' : o.st.x = s.x := henv.x
  have hsp' : o.st.sp = s.sp + spMove .asA a := henv.sp
  rw [hx'] at hx
  rw [hsp', BitVec.add_assoc] at hsp
  exact ⟨o.st.mem.read o.st.sp, t.pc, ⟨hx, hsp, rfl, hex.trans henv.ex, hia.trans henv.ia, henv.irqq.trans hirqq, hiaq,
    hskip.trans henv.skip, hrun.trans henv.running, hcyc.trans henv.cycles, rk.devices.trans henv.devices,
    hdiag.trans henv.diags⟩, hk.trans rk⟩

theorem hwq_next (h : exec (.hwq a) s = .next t) :
    ∃ d, (loadDescriptor d (s.setSp (s.sp + spMove .asA a))).EnvStep t ∧ Keeps s t := by
  obtain ⟨o, -, -, henv, hk, he⟩ := special_next rfl h
  split at he
  case h_1 => cases he
  case h_2 d _ =>
    obtain rfl := Except.ok.inj he
    have henv' := henv.update (f := loadDescriptor d.descriptor) fun _ _ _ _ => rfl
    exact ⟨d.descriptor, henv', hk.trans (.of_eq rfl rfl rfl rfl)⟩

theorem hwi_next (h : exec (.hwi a) s = .next t) : ∃ f, (s.setRegFile f).EnvStep t ∧ Keeps s t := by
  obtain ⟨o, -, -, henv, hk, he⟩ := special_next rfl h
  split at he
  case h_1 => cases he
  case h_2 d _ =>
    obtain ⟨hia, hiaq, hskip, hrun, hcyc, hdiag, hirqq, dk⟩ := dispatchDevice_ok he
    exact ⟨t.regFile, ⟨rfl, rfl, rfl, rfl, hia.trans henv.ia, henv.irqq.trans hirqq, hiaq.trans henv.iaq,
      hskip.trans henv.skip, hrun.trans henv.running, hcyc.trans henv.cycles, dk.devices.trans henv.devices,
      hdiag.trans henv.diags⟩, hk.trans dk⟩

end Special

/-! ### All the instructions, with any devices -/

/-- The core's own part of an instruction: the state it makes of `s` but for memory and the devices' part. What a device
can change in a value read meanwhile, or answer to a dispatch, is left open. -/
inductive Effect (s : State) : Instr → State → Prop where
  | alu {b a : Operand} {i : Instr} {f : AluFn} (hi : (i, f) ∈ alus b a) (vb : Word) :
      Effect s i (aluState b a s (f (valA b a s) vb s.ex).1 (f (valA b a s) vb s.ex).2)
  | indexMove {b a : Operand} {i : Instr} {d : Word} (hi : (i, d) ∈ indexMoves b a) :
      Effect s i (stepIndexes d (aluState b a s (valA b a s) 0))
  | holds {b a : Operand} {i : Instr} {p : Word → Word → Bool} (hi : (i, p) ∈ conditionals b a) :
      Effect s i (locate b a s).st
  | skips {b a : Operand} {i : Instr} {p : Word → Word → Bool} (hi : (i, p) ∈ conditionals b a) :
      Effect s i ((locate b a s).st.setSkip true)
  | jsr (a : Operand) : Effect s (.jsr a) ((s.setSp (s.sp + spMove .asA a - 1)).setPc (val a s))
  | hcf (a : Operand) : Effect s (.hcf a) ((s.setSp (s.sp + spMove .asA a)).setRunning false)
  | int (a : Operand) : Effect s (.int a) (s.setSp (s.sp + spMove .asA a))
  | iag (a : Operand) : Effect s (.iag a) (pokeLoc (resolve .asA a s).1 s.ia (s.setSp (s.sp + spMove .asA a)))
  | ias (a : Operand) : Effect s (.ias a) ((s.setSp (s.sp + spMove .asA a)).setIa (val a s))
  | rfi (a : Operand) (v w : Word) :
      Effect s (.rfi a) ((((s.setIaq false).setReg .A v).setSp (s.sp + spMove .asA a + 2)).setPc w)
  | iaq (a : Operand) : Effect s (.iaq a) ((s.setSp (s.sp + spMove .asA a)).setIaq (decide (val a s ≠ 0)))
  | hwn (a : Operand) :
      Effect s (.hwn a)
        (pokeLoc (resolve .asA a s).1 (BitVec.ofNat 16 s.devices.length) (s.setSp (s.sp + spMove .asA a)))
  | hwq (a : Operand) (d : Descriptor) : Effect s (.hwq a) (loadDescriptor d (s.setSp (s.sp + spMove .asA a)))
  | hwi (a : Operand) (f : RegFile) : Effect s (.hwi a) (s.setRegFile f)

section Basic

variable {b a : Operand} {i : Instr} {s t : State}

theorem alu_next {f : AluFn} (hi : (i, f) ∈ alus b a) (h : exec i s = .next t) :
    ∃ vb, (aluState b a s (f (valA b a s) vb s.ex).1 (f (valA b a s) vb s.ex).2).EnvStep t ∧ Keeps s t := by
  rw [exec_of_mem_alus hi, finish_eq_next] at h
  exact aluEffect_ok h

theorem indexMove_next {d : Word} (hi : (i, d) ∈ indexMoves b a) (h : exec i s = .next t) :
    (stepIndexes d (aluState b a s (valA b a s) 0)).EnvStep t ∧ Keeps s t := by
  rw [exec_of_mem_indexMoves hi, finish_eq_next] at h
  obtain ⟨u, hu, h⟩ := bind_eq_ok.1 h
  cases h
  obtain ⟨_, henv, hk⟩ := aluEffect_ok hu
  exact ⟨henv.update (f := stepIndexes d) fun _ _ _ _ => rfl, hk.trans (.of_eq rfl rfl rfl rfl)⟩

theorem conditional_next {p : Word → Word → Bool} (hi : (i, p) ∈ conditionals b a) (h : exec i s = .next t) :
    ((locate b a s).st.EnvStep t ∨ ((locate b a s).st.setSkip true).EnvStep t) ∧ Keeps s t := by
  rw [exec_of_mem_conditionals hi, finish_eq_next] at h
  exact condEffect_ok h

end Basic

/-- Whatever the instruction and the devices: the core's part of it, and then the devices' part. -/
theorem exec_next {i : Instr} {s t : State} (h : exec i s = .next t) :
    (∃ u, Effect s i u ∧ u.EnvStep t) ∧ Keeps s t := by
  rcases instr_cases i with ⟨b, a, f, hi⟩ | ⟨b, a, d, hi⟩ | ⟨b, a, p, hi⟩ | ⟨a, hi⟩
  · obtain ⟨vb, henv, hk⟩ := alu_next hi h
    exact ⟨⟨_, .alu hi vb, henv⟩, hk⟩
  · obtain ⟨henv, hk⟩ := indexMove_next hi h
    exact ⟨⟨_, .indexMove hi, henv⟩, hk⟩
  · obtain ⟨henv | henv, hk⟩ := conditional_next hi h
    · exact ⟨⟨_, .holds hi, henv⟩, hk⟩
    · exact ⟨⟨_, .skips hi, henv⟩, hk⟩
  · simp only [specials, List.mem_cons, List.not_mem_nil, or_false] at hi
    rcases hi with rfl | rfl | rfl | rfl | rfl | rfl | rfl | rfl | rfl | rfl
    · exact ⟨⟨_, .jsr a, (jsr_next h).1⟩, (jsr_next h).2⟩
    · exact ⟨⟨_, .hcf a, (hcf_next h).1⟩, (hcf_next h).2⟩
    · exact ⟨⟨_, .int a, (int_next h).1⟩, (int_next h).2⟩
    · exact ⟨⟨_, .iag a, (iag_next h).1⟩, (iag_next h).2⟩
    · exact ⟨⟨_, .ias a, (ias_next h).1⟩, (ias_next h).2⟩
    · obtain ⟨v, w, henv, hk⟩ := rfi_next h
      exact ⟨⟨_, .rfi a v w, henv⟩, hk⟩
    · exact ⟨⟨_, .iaq a, (iaq_next h).1⟩, (iaq_next h).2⟩
    · exact ⟨⟨_, .hwn a, (hwn_next h).1⟩, (hwn_next h).2⟩
    · obtain ⟨d, henv, hk⟩ := hwq_next h
      exact ⟨⟨_, .hwq a d, henv⟩, hk⟩
    · obtain ⟨f, henv, hk⟩ := hwi_next h
      exact ⟨⟨_, .hwi a f, henv⟩, hk⟩

end Sys2Proof
end

section
/-! Whole-machine rules: who writes the control state and EX, what every step and every move keeps. -/

namespace Sys2Proof

open Machine Machine.State

/-! ### The forms of the instructions -/

/-- The opcode field of a basic-form first word, encodable or not (R71). -/
theorem fieldO_firstWord_basic {i : Instr} {b : Operand} (h : i.opB = some b) : fieldO i.firstWord = i.opcode := by
  have hlt := i.opcode_lt
  simp only [Instr.firstWord, h, fieldO, BitVec.toNat_ofNat]
  omega

theorem isConditional_firstWord {i : Instr} {b : Operand} (h : i.opB = some b) :
    isConditional i.firstWord = decide (0x10 ≤ i.opcode ∧ i.opcode ≤ 0x17) := by
  rw [isConditional, fieldO_firstWord_basic h]

/-- The 17 ALU instructions have basic form and are no conditionals. -/
theorem form_of_mem_alus {b a : Operand} {i : Instr} {f : AluFn} (h : (i, f) ∈ alus b a) :
    i.opB = some b ∧ isConditional i.firstWord = false := by
  have hall : ∀ q ∈ alus b a, q.1.opB = some b ∧ decide (0x10 ≤ q.1.opcode ∧ q.1.opcode ≤ 0x17) = false := by
    simp [alus, Instr.opB, Instr.opcode]
  obtain ⟨hb, hc⟩ := hall _ h
  exact ⟨hb, (isConditional_firstWord hb).trans hc⟩

/-- STI and STD have basic form and are no conditionals. -/
theorem form_of_mem_indexMoves {b a : Operand} {i : Instr} {d : Word} (h : (i, d) ∈ indexMoves b a) :
    i.opB = some b ∧ isConditional i.firstWord = false := by
  have hall : ∀ q ∈ indexMoves b a, q.1.opB = some b ∧ decide (0x10 ≤ q.1.opcode ∧ q.1.opcode ≤ 0x17) = false := by
    simp [indexMoves, Instr.opB, Instr.opcode]
  obtain ⟨hb, hc⟩ := hall _ h
  exact ⟨hb, (isConditional_firstWord hb).trans hc⟩

/-- The conditionals have basic form and are the instructions the skip state goes on through (R105). -/
theorem form_of_mem_conditionals {b a : Operand} {i : Instr} {p : Word → Word → Bool} (h : (i, p) ∈ conditionals b a) :
    i.opB = some b ∧ isConditional i.firstWord = true := by
  have hall : ∀ q ∈ conditionals b a, q.1.opB = some b ∧ decide (0x10 ≤ q.1.opcode ∧ q.1.opcode ≤ 0x17) = true := by
    simp [conditionals, Instr.opB, Instr.opcode]
  obtain ⟨hb, hc⟩ := hall _ h
  exact ⟨hb, (isConditional_firstWord hb).trans hc⟩

/-! ### Control state (R222) -/

/-- Which control state an instruction may write, and how. -/
structure WritesControl (i : Instr) (s t : State) : Prop where
  ia       : (∀ a, i ≠ .ias a) → t.ia = s.ia
  iaq      : (∀ a, i ≠ .iaq a ∧ i ≠ .rfi a) → t.iaq = s.iaq
  running  : (∀ a, i ≠ .hcf a) → t.running = s.running
  skip     : t.skip = s.skip ∨ t.skip = true ∧ isConditional i.firstWord = true
  noStart  : t.running.toNat ≤ s.running.toNat
  engine   : s.SameEngine t

section Control

variable {i : Instr} {s u t : State}

theorem WritesControl.of_sameFrame (h : SameFrame s t) : WritesControl i s t :=
  ⟨fun _ => h.ia, fun _ => h.iaq, fun _ => h.running, .inl h.skip, by rw [h.running], h.toSameEngine⟩

theorem WritesControl.env (h : WritesControl i s u) (k : u.EnvStep t) : WritesControl i s t where
  ia hi := k.ia.trans (h.ia hi)
  iaq hi := k.iaq.trans (h.iaq hi)
  running hi := k.running.trans (h.running hi)
  skip := by rw [k.skip]; exact h.skip
  noStart := by rw [k.running]; exact h.noStart
  engine := ⟨k.cycles.trans h.engine.cycles, k.devices.trans h.engine.devices, k.diags.trans h.engine.diags,
    h.engine.irqq.trans k.irqq⟩

theorem SameFrame.locate (b a : Operand) (s : State) : SameFrame s (locate b a s).st := by
  rw [locate_state]
  exact .setRegFile s ⟨s.x, _, s.pc, s.ex⟩

theorem SameFrame.stepIndexes (d : Word) (s : State) : SameFrame s (stepIndexes d s) :=
  .setRegFile s ⟨_, s.sp, s.pc, s.ex⟩

theorem SameFrame.setSp (v : Word) (s : State) : SameFrame s (s.setSp v) := .setRegFile s ⟨s.x, v, s.pc, s.ex⟩

/-- The core's part of an instruction writes the control state named for it alone. -/
theorem Effect.writesControl (h : Effect s i u) : WritesControl i s u := by
  have hq := List.prefix_refl s.irqq
  cases h with
  | alu hi vb => exact .of_sameFrame (.aluState ..)
  | indexMove hi => exact .of_sameFrame ((SameFrame.aluState ..).trans (.stepIndexes ..))
  | holds hi => exact .of_sameFrame (.locate ..)
  | @skips b a _ _ hi =>
    have hl := SameFrame.locate b a s
    exact ⟨fun _ => hl.ia, fun _ => hl.iaq, fun _ => hl.running, .inr ⟨rfl, (form_of_mem_conditionals hi).2⟩,
      by rw [State.setSkip_running, hl.running], ⟨hl.cycles, hl.devices, hl.diags, hl.irqq⟩⟩
  | jsr a => exact .of_sameFrame (.setRegFile s ⟨s.x, _, _, s.ex⟩)
  | hcf a =>
    exact ⟨fun _ => rfl, fun _ => rfl, fun h => absurd rfl (h a), .inl rfl, Nat.zero_le _, ⟨rfl, rfl, rfl, hq⟩⟩
  | int a => exact .of_sameFrame (.setSp ..)
  | iag a => exact .of_sameFrame ((SameFrame.setSp ..).trans (.pokeLoc ..))
  | ias a =>
    exact ⟨fun h => absurd rfl (h a), fun _ => rfl, fun _ => rfl, .inl rfl, Nat.le_refl _, ⟨rfl, rfl, rfl, hq⟩⟩
  | rfi a v w =>
    exact ⟨fun _ => rfl, fun h => absurd rfl (h a).2, fun _ => rfl, .inl rfl, Nat.le_refl _, ⟨rfl, rfl, rfl, hq⟩⟩
  | iaq a =>
    exact ⟨fun _ => rfl, fun h => absurd rfl (h a).1, fun _ => rfl, .inl rfl, Nat.le_refl _, ⟨rfl, rfl, rfl, hq⟩⟩
  | hwn a => exact .of_sameFrame ((SameFrame.setSp ..).trans (.pokeLoc ..))
  | hwq a d => exact .of_sameFrame (.setRegFile s ⟨_, _, s.pc, s.ex⟩)
  | hwi a f => exact .of_sameFrame (.setRegFile s f)

theorem exec_writesControl (h : exec i s = .next t) : WritesControl i s t := by
  obtain ⟨⟨u, heff, henv⟩, -⟩ := exec_next h
  exact heff.writesControl.env henv

end Control

/-- Settles O53: by the case split over the core's part of the 37 instructions. -/
theorem controlStateWriters : Obligations.ControlStateWriters := by
  unfold Obligations.ControlStateWriters
  intro i s t h
  obtain ⟨hia, hiaq, hrun, hskip, hstart, hengine⟩ := exec_writesControl h
  exact ⟨hia, hiaq, hrun, fun hne => hskip.resolve_left hne, hstart, hengine⟩

/-! ### EX (D3) -/

theorem resolve_eq_ex {pos : Pos} {o : Operand} {s : State} (h : (resolve pos o s).1 = .ex) : o = .ex := by
  cases o <;> cases pos <;> cases h <;> rfl

/-- A write to an operand's location changes EX only where the operand is EX. -/
theorem eq_ex_of_pokeLoc {pos : Pos} {o : Operand} {v : Word} {s u : State}
    (h : (pokeLoc (resolve pos o s).1 v u).ex ≠ u.ex) : o = .ex := by
  obtain ⟨-, -, hex, -⟩ := pokeLoc_other (resolve pos o s).1 v u
  exact resolve_eq_ex (Classical.not_not.1 fun hne => h (hex hne))

/-- Settles O54: of the core's parts, these are the ones that can write EX. -/
theorem exWriters : Obligations.ExWriters := by
  unfold Obligations.ExWriters
  intro i s t h hne
  obtain ⟨⟨u, heff, henv⟩, -⟩ := exec_next h
  rw [henv.ex] at hne
  cases heff with
  | alu hi vb => exact .inl ⟨_, form_of_mem_alus hi⟩
  | indexMove hi => exact .inl ⟨_, form_of_mem_indexMoves hi⟩
  | iag a => exact .inr (.inl (congrArg _ (eq_ex_of_pokeLoc hne)))
  | hwn a => exact .inr (.inr (.inl (congrArg _ (eq_ex_of_pokeLoc hne))))
  | hwi a f => exact .inr (.inr (.inr ⟨a, rfl⟩))
  | holds hi => exact absurd (by rw [locate_state]; rfl) hne
  | skips hi => exact absurd (by rw [State.setSkip_ex, locate_state]; rfl) hne
  | jsr | hcf | int | ias | rfi | iaq | hwq => exact absurd rfl hne

/-! ### The step: the counter, the queue and the invariant -/

section Step

variable {s t : State}

/-- Dispatch, whatever stands at PC, keeps the counter and the waiting messages. -/
theorem runDecoded_next {p w : Word} {d : Decoded} (h : runDecoded p w d s = .next t) :
    t.cycles = s.cycles ∧ s.irqq <+: t.irqq ∧ Keeps s t := by
  cases d with
  | instr i =>
    have hengine := (exec_writesControl h).engine
    exact ⟨hengine.cycles, hengine.irqq, (exec_next h).2⟩
  | reservedBasic o b a =>
    obtain ⟨q, hq, h⟩ := bind_eq_ok.1 (finish_eq_next.1 h)
    cases h
    obtain ⟨-, -, -, henv, hk⟩ := operands_ok hq
    exact ⟨henv.cycles, henv.irqq, hk.trans (.of_eq rfl rfl rfl rfl)⟩
  | reservedSpecial o a =>
    obtain ⟨q, hq, h⟩ := bind_eq_ok.1 (finish_eq_next.1 h)
    cases h
    obtain ⟨-, -, henv, hk⟩ := operand_ok hq
    exact ⟨henv.cycles, henv.irqq, hk.trans (.of_eq rfl rfl rfl rfl)⟩

/-- Delivery takes at most the oldest message, and none while queueing is on. -/
theorem deliverInterrupt_next (h : deliverInterrupt s = .ok t) :
    t.cycles = s.cycles ∧ (s.irqq <+: t.irqq ∨ s.iaq = false ∧ s.irqq.tail <+: t.irqq) := by
  rcases deliverInterrupt_cases s with ⟨e, -⟩ | ⟨msg, rest, hiaq, hq, ⟨-, e⟩ | ⟨-, e⟩⟩ <;> rw [e] at h
  · cases h
    exact ⟨rfl, .inl (List.prefix_refl _)⟩
  · cases h
    exact ⟨rfl, .inr ⟨hiaq, by rw [hq]; exact List.prefix_refl _⟩⟩
  · obtain ⟨-, -, -, -, -, -, -, -, hcyc, -, hirqq, -⟩ := enterInterrupt_ok h
    exact ⟨hcyc, .inr ⟨hiaq, by rw [hq]; exact hirqq⟩⟩

/-- A skip reads one word and moves PC and `skip` alone. -/
theorem skipCycle_next (h : skipCycle s = .next t) :
    (skipOne (s.mem.read s.pc) (s.setPc (s.pc + 1))).EnvStep t ∧ Keeps s t := by
  obtain ⟨r, hr, h⟩ := bind_eq_ok.1 (finish_eq_next.1 h)
  obtain rfl := Except.ok.inj h
  obtain ⟨hw, henv, hk⟩ := nextWord_ok hr
  rw [hw]
  exact ⟨henv.update (f := skipOne (s.mem.read s.pc)) fun _ _ _ _ => rfl, hk.trans (.of_eq rfl rfl rfl rfl)⟩

/-- What every completed step does: it counts one cycle, takes messages at the queue's head only, and keeps what the
invariant rests on. -/
theorem step_next (h : step s = .next t) :
    t.cycles = s.cycles + 1 ∧ (s.irqq <+: t.irqq ∨ s.iaq = false ∧ s.skip = false ∧ s.irqq.tail <+: t.irqq) ∧
      Keeps s t := by
  obtain ⟨-, u, rfl, ⟨-, hu⟩ | ⟨hskip, s1, r, hd, hf, hu⟩⟩ := step_cases h
  · obtain ⟨henv, hk⟩ := skipCycle_next hu
    exact ⟨congrArg (· + 1) henv.cycles, .inl henv.irqq, hk.trans (.of_eq rfl rfl rfl rfl)⟩
  · obtain ⟨hcyc, hqueue⟩ := deliverInterrupt_next hd
    obtain ⟨-, -, -, fenv, fk⟩ := fetch_ok hf
    obtain ⟨rcyc, rirqq, rk⟩ := runDecoded_next hu
    have htail : s1.irqq <+: u.irqq := List.IsPrefix.trans fenv.irqq rirqq
    refine ⟨congrArg (· + 1) (rcyc.trans (fenv.cycles.trans hcyc)), ?_,
      (deliverInterrupt_keeps hd).trans (fk.trans (rk.trans (.of_eq rfl rfl rfl rfl)))⟩
    rcases hqueue with hq | ⟨hiaq, hq⟩
    · exact .inl (hq.trans htail)
    · exact .inr ⟨hiaq, hskip, hq.trans htail⟩

end Step

/-- Settles O21: no phase of a step but the last one counts. -/
theorem everyStepCountsOneCycle : Obligations.EveryStepCountsOneCycle := by
  unfold Obligations.EveryStepCountsOneCycle
  intro s t h
  obtain ⟨hcycles, -, -⟩ := step_next h
  exact hcycles

/-- Settles O26: delivery takes from the head, and everything after it only appends. -/
theorem queueIsFirstInFirstOut : Obligations.QueueIsFirstInFirstOut := by
  unfold Obligations.QueueIsFirstInFirstOut
  intro s t h
  obtain ⟨-, hqueue, -⟩ := step_next h
  exact hqueue

/-- Settles O55: the reset state is evaluated. -/
theorem resetSatisfiesInvariant : Obligations.ResetSatisfiesInvariant := by
  unfold Obligations.ResetSatisfiesInvariant
  decide

/-- Settles O56: every phase of a step keeps what the invariant rests on. -/
theorem stepKeepsInvariant : Obligations.StepKeepsInvariant := by
  unfold Obligations.StepKeepsInvariant
  intro s t hs h
  obtain ⟨-, -, hk⟩ := step_next h
  exact hk.inv hs

/-! ### The environment's moves -/

/-- A tick is the reaction of a device that has the capability. -/
theorem tick_eq_next {k : Nat} {s t : State} :
    tick k s = .next t ↔
      ∃ d h, s.devices[k]? = some d ∧ d.tick = some h ∧
        react k (h.answer Config.tick (s.devState k, s.mem)) s = .ok t := by
  unfold tick
  cases hd : s.devices[k]? with
  | none => simp
  | some d =>
    cases ht : d.tick with
    | none => simp [ht]
    | some h => simp [ht, finish_eq_next]

/-- Every move but a reset keeps what the invariant rests on. -/
theorem move_next {m : Move} {s t : State} (hm : ∀ image devs, m ≠ .reset image devs) (h : move m s = .next t) :
    Keeps s t := by
  cases m with
  | step =>
    obtain ⟨-, -, hk⟩ := step_next h
    exact hk
  | tick k =>
    obtain ⟨d, f, -, -, hr⟩ := tick_eq_next.1 h
    exact (react_env hr).2
  | stop => cases h; exact .of_eq rfl rfl rfl rfl
  | start => cases h; exact .of_eq rfl rfl rfl rfl
  | load cells => cases h; exact ⟨Memory.wf_writeAll cells, id, rfl, rfl⟩
  | reset image devs => exact absurd rfl (hm image devs)

/-- Construction gives a state that satisfies the invariant: what would break it is refused. -/
theorem construct_inv {image : List Word} {devs : List (Device × DevState)} {s : State}
    (h : State.construct image devs = .next s) : s.inv = true := by
  obtain ⟨-, hdevs, hranges, rfl⟩ := construct_eq_next.1 h
  simp only [State.inv, Bool.and_eq_true, decide_eq_true_eq, List.length_map, List.all_map]
  exact ⟨⟨⟨⟨Memory.wf_writeAll _ Memory.wf_nil, Nat.zero_le _⟩, hdevs⟩, hranges⟩, trivial⟩

/-- Settles O57: by induction over the moves, a reset being a construction. -/
theorem reachableStatesSatisfyInvariant : Obligations.ReachableStatesSatisfyInvariant := by
  unfold Obligations.ReachableStatesSatisfyInvariant
  intro s hs
  induction hs with
  | construct h => exact construct_inv h
  | @move m s t _ h ih =>
    by_cases hm : ∃ image devs, m = .reset image devs
    · obtain ⟨image, devs, rfl⟩ := hm
      exact construct_inv h
    · exact (move_next (fun image devs e => hm ⟨image, devs, e⟩) h).inv ih

/-- Settles O58: every move but a reset keeps the registry. -/
theorem registryIsFixed : Obligations.RegistryIsFixed := by
  unfold Obligations.RegistryIsFixed
  intro m s t hm h
  have hk := move_next hm h
  exact ⟨hk.devices, hk.dev⟩

/-- Requests that do not all fit in the queue have no next state (R237). -/
theorem irqAll_overflow {ms : List Word} {s : State} (h : s.irqq.length ≤ Config.irqQueueMax)
    (hms : Config.irqQueueMax < s.irqq.length + ms.length) : irqAll ms s = .error .interruptQueueOverflow := by
  induction ms generalizing s with
  | nil => exact absurd h (Nat.not_le.2 hms)
  | cons m ms ih =>
    by_cases hfull : Config.irqQueueMax ≤ s.irqq.length
    · simp [irqAll, irq, hfull]
    · simp only [irqAll, irq, hfull, if_false, ok_bind]
      simp only [List.length_cons] at hms
      refine ih ?_ ?_ <;> simp only [State.setIrqq_irqq, List.length_append, List.length_singleton] <;> omega

/-- Settles O59: a tick is its device's reaction, and a reaction is the device's answer applied. -/
theorem tickLeavesRegisters : Obligations.TickLeavesRegisters := by
  unfold Obligations.TickLeavesRegisters
  intro k s
  refine ⟨fun d h r hd ht hr => ⟨fun hroom => ?_, fun hle hfull => ?_⟩, fun hno => ?_, fun t h => ?_⟩
  · exact tick_eq_next.2 ⟨d, h, hd, ht, hr ▸ react_eq_ok.2 ⟨.inr hroom, rfl⟩⟩
  · have hover : react k r s = .error .interruptQueueOverflow := irqAll_overflow hle hfull
    simp only [tick, hd, ht, ← hr, hover, finish_error]
  · unfold tick
    cases hd : s.devices[k]? with
    | none => rfl
    | some d =>
      cases ht : d.tick with
      | none => simp [ht]
      | some h => exact absurd ht (hno d h hd)
  · obtain ⟨d, f, -, -, hreact⟩ := tick_eq_next.1 h
    obtain ⟨-, rfl⟩ := react_eq_ok.1 hreact
    refine ⟨(react_env hreact).1, fun j hj => ?_⟩
    simp [State.devState, List.getD, Ne.symm hj]

end Sys2Proof
end

section
/-! The cycle counter and the diagnostics are write-only (D12, D36): every operation commutes with replacing them. -/

namespace Sys2Proof

open Machine

/-- A state with other values of what no rule reads: the counter and the diagnostics emitted. -/
def Machine.State.withLog (n : Nat) (ds : List Diag) (s : State) : State := { s with cycles := n, diags := ds }

/-- Two computations one after the other commute with a replacement in their results where each does. -/
theorem bind_commute {ε α β : Type} {x x' : Except ε α} {f f' : α → Except ε β} {g : α → α} {h : β → β}
    (hx : x' = x.map g) (hf : ∀ a, f' (g a) = (f a).map h) : (x' >>= f') = (x >>= f).map h := by
  subst hx
  cases x with
  | error e => rfl
  | ok a => exact hf a

section WithLog

variable (n : Nat) (ds : List Diag) (s : State)

/-! ### The shared operations -/

theorem irq_withLog (m : Word) : irq m (s.withLog n ds) = (irq m s).map (State.withLog n ds) := by
  by_cases h : Config.irqQueueMax ≤ s.irqq.length
  · have h' : Config.irqQueueMax ≤ (s.withLog n ds).irqq.length := h
    rw [irq, irq, if_pos h, if_pos h']
    rfl
  · have h' : ¬ Config.irqQueueMax ≤ (s.withLog n ds).irqq.length := h
    rw [irq, irq, if_neg h, if_neg h']
    rfl

theorem irqAll_withLog (ms : List Word) : irqAll ms (s.withLog n ds) = (irqAll ms s).map (State.withLog n ds) := by
  induction ms generalizing s with
  | nil => rfl
  | cons m ms ih => exact bind_commute (irq_withLog n ds s m) ih

theorem react_withLog (k : Nat) (r : Reaction) :
    react k r (s.withLog n ds) = (react k r s).map (State.withLog n ds) :=
  irqAll_withLog n ds ((s.setDev k r.dev).setMem (s.mem.writeAll r.writes)) r.irqs

theorem notifyOne_withLog (acc : Access) (a v : Word) (k : Nat) :
    notifyOne acc a v k (s.withLog n ds) = (notifyOne acc a v k s).map (State.withLog n ds) := by
  have hdevs : (s.withLog n ds).devices = s.devices := rfl
  have hdev : (s.withLog n ds).devState k = s.devState k := rfl
  unfold notifyOne
  rw [hdevs, hdev]
  cases s.devices[k]? with
  | none => rfl
  | some d =>
    dsimp only
    cases d.reaction acc (s.devState k) a v with
    | none => rfl
    | some r => exact react_withLog n ds s k r

theorem notify_withLog (acc : Access) (a v : Word) (ks : List Nat) :
    notify acc a v ks (s.withLog n ds) = (notify acc a v ks s).map (State.withLog n ds) := by
  induction ks generalizing s with
  | nil => rfl
  | cons k ks ih => exact bind_commute (notifyOne_withLog n ds s acc a v k) ih

theorem memRead_withLog (a : Word) :
    memRead a (s.withLog n ds) = (memRead a s).map (Prod.map id (State.withLog n ds)) :=
  bind_commute (notify_withLog n ds s .get a (s.mem.read a) _) fun _ => rfl

theorem memWrite_withLog (a v : Word) : memWrite a v (s.withLog n ds) = (memWrite a v s).map (State.withLog n ds) :=
  notify_withLog n ds (s.setMem (s.mem.write a v)) .set a v _

theorem nextWord_withLog : nextWord (s.withLog n ds) = (nextWord s).map (Prod.map id (State.withLog n ds)) :=
  bind_commute (memRead_withLog n ds s s.pc) fun _ => rfl

theorem nextWords_withLog (k : Nat) :
    nextWords k (s.withLog n ds) = (nextWords k s).map (Prod.map id (State.withLog n ds)) := by
  induction k generalizing s with
  | zero => rfl
  | succ k ih => exact bind_commute (nextWord_withLog n ds s) fun r => bind_commute (ih r.2) fun _ => rfl

theorem push_withLog (v : Word) : push v (s.withLog n ds) = (push v s).map (State.withLog n ds) :=
  memWrite_withLog n ds (s.setSp (s.sp - 1)) (s.sp - 1) v

theorem pop_withLog : pop (s.withLog n ds) = (pop s).map (Prod.map id (State.withLog n ds)) :=
  bind_commute (memRead_withLog n ds s s.sp) fun _ => rfl

theorem enterInterrupt_withLog (msg : Word) :
    enterInterrupt msg (s.withLog n ds) = (enterInterrupt msg s).map (State.withLog n ds) :=
  bind_commute (push_withLog n ds (s.setIaq true) s.pc) fun u =>
    bind_commute (push_withLog n ds u u.x.A) fun _ => rfl

theorem deliverInterrupt_withLog :
    deliverInterrupt (s.withLog n ds) = (deliverInterrupt s).map (State.withLog n ds) := by
  have hiaq : (s.withLog n ds).iaq = s.iaq := rfl
  have hirqq : (s.withLog n ds).irqq = s.irqq := rfl
  have hia : (s.withLog n ds).ia = s.ia := rfl
  unfold deliverInterrupt
  rw [hiaq, hirqq]
  split
  case h_1 msg rest _ _ =>
    by_cases h0 : s.ia = 0
    · simp only [State.setIrqq_ia, hia, h0, if_true]
      rfl
    · simp only [State.setIrqq_ia, hia, h0, if_false]
      exact enterInterrupt_withLog n ds (s.setIrqq rest) msg
  case h_2 => rfl

theorem returnFromInterrupt_withLog :
    returnFromInterrupt (s.withLog n ds) = (returnFromInterrupt s).map (State.withLog n ds) :=
  bind_commute (pop_withLog n ds (s.setIaq false)) fun ra =>
    bind_commute (pop_withLog n ds (ra.2.setReg .A ra.1)) fun _ => rfl

theorem dispatchDevice_withLog (k : Nat) (d : Device) :
    dispatchDevice k d (s.withLog n ds) = (dispatchDevice k d s).map (State.withLog n ds) := by
  unfold dispatchDevice
  cases d.interrupt with
  | none => rfl
  | some h =>
    exact irqAll_withLog n ds (((s.setDev k (h.answer Config.interrupt (s.devState k, s.regFile, s.mem)).dev).setRegFile
      (h.answer Config.interrupt (s.devState k, s.regFile, s.mem)).regs).setMem _) _

/-! ### Operands -/

theorem resolve_withLog (pos : Pos) (o : Operand) :
    resolve pos o (s.withLog n ds) = Prod.map id (State.withLog n ds) (resolve pos o s) := by
  cases o <;> cases pos <;> rfl

theorem readLoc_withLog (l : Loc) :
    readLoc l (s.withLog n ds) = (readLoc l s).map (Prod.map id (State.withLog n ds)) := by
  cases l
  case mem a => exact memRead_withLog n ds s a
  all_goals rfl

theorem writeLoc_withLog (l : Loc) (v : Word) :
    writeLoc l v (s.withLog n ds) = (writeLoc l v s).map (State.withLog n ds) := by
  cases l
  case mem a => exact memWrite_withLog n ds s a v
  all_goals rfl

/-- What a basic-form instruction receives, with the log replaced. -/
def Machine.Basic.withLog (o : Basic) : Basic := { o with st := o.st.withLog n ds }

/-- What a special-form instruction receives, with the log replaced. -/
def Machine.Single.withLog (o : Single) : Single := { o with st := o.st.withLog n ds }

@[simp] theorem Machine.Single.withLog_va (o : Single) : (o.withLog n ds).va = o.va := rfl

@[simp] theorem Machine.Single.withLog_devices (o : Single) : (o.withLog n ds).st.devices = o.st.devices := rfl

theorem operands_withLog (b a : Operand) :
    operands b a (s.withLog n ds) = (operands b a s).map (Basic.withLog n ds) := by
  simp only [operands, locate, resolve_withLog, Prod.map_fst, Prod.map_snd, id]
  exact bind_commute (readLoc_withLog n ds _ _) fun ra => bind_commute (readLoc_withLog n ds ra.2 _) fun _ => rfl

theorem operand_withLog (a : Operand) : operand a (s.withLog n ds) = (operand a s).map (Single.withLog n ds) := by
  simp only [operand, resolve_withLog, Prod.map_fst, Prod.map_snd, id]
  exact bind_commute (readLoc_withLog n ds _ _) fun _ => rfl

/-! ### Instructions -/

/-- The next state of an outcome replaced. -/
def mapNext (g : State → State) : Host.Outcome State Fault Refusal → Host.Outcome State Fault Refusal
  | .next s => .next (g s)
  | .fault f => .fault f
  | .refused r => .refused r

theorem finish_map (g : State → State) (e : Except Fault State) : finish (e.map g) = mapNext g (finish e) := by
  cases e <;> rfl

theorem aluEffect_withLog (f : AluFn) (b a : Operand) :
    aluEffect f b a (s.withLog n ds) = (aluEffect f b a s).map (State.withLog n ds) :=
  bind_commute (operands_withLog n ds s b a) fun o =>
    bind_commute (writeLoc_withLog n ds o.st o.lb _) fun _ => rfl

theorem condEffect_withLog (p : Word → Word → Bool) (b a : Operand) :
    condEffect p b a (s.withLog n ds) = (condEffect p b a s).map (State.withLog n ds) :=
  bind_commute (operands_withLog n ds s b a) fun o => by
    have hval : p (o.withLog n ds).va (o.withLog n ds).vb = p o.va o.vb := rfl
    rw [hval]
    cases p o.va o.vb <;> rfl

variable {n ds s}

/-- An instruction with one operand commutes with the replacement where its own effect `e` does. -/
theorem special_withLog {i : Instr} {a : Operand} {e : Single → Except Fault State}
    (hi : ∀ s, exec i s = finish (operand a s >>= e))
    (he : ∀ o, e (o.withLog n ds) = (e o).map (State.withLog n ds)) :
    exec i (s.withLog n ds) = mapNext (State.withLog n ds) (exec i s) := by
  rw [hi, hi, ← finish_map]
  exact congrArg finish (bind_commute (operand_withLog n ds s a) he)

theorem exec_withLog (i : Instr) : exec i (s.withLog n ds) = mapNext (State.withLog n ds) (exec i s) := by
  rcases instr_cases i with ⟨b, a, f, hi⟩ | ⟨b, a, d, hi⟩ | ⟨b, a, p, hi⟩ | ⟨a, hi⟩
  · rw [exec_of_mem_alus hi, exec_of_mem_alus hi, aluEffect_withLog, finish_map]
  · rw [exec_of_mem_indexMoves hi, exec_of_mem_indexMoves hi, ← finish_map]
    exact congrArg finish (bind_commute (aluEffect_withLog n ds s fSet b a) fun _ => rfl)
  · rw [exec_of_mem_conditionals hi, exec_of_mem_conditionals hi, condEffect_withLog, finish_map]
  · simp only [specials, List.mem_cons, List.not_mem_nil, or_false] at hi
    rcases hi with rfl | rfl | rfl | rfl | rfl | rfl | rfl | rfl | rfl | rfl
    · exact special_withLog (fun _ => rfl) fun o => bind_commute (push_withLog n ds o.st _) fun _ => rfl
    · exact special_withLog (fun _ => rfl) fun _ => rfl
    · exact special_withLog (fun _ => rfl) fun o => irq_withLog n ds o.st o.va
    · exact special_withLog (fun _ => rfl) fun o => writeLoc_withLog n ds o.st o.la _
    · exact special_withLog (fun _ => rfl) fun _ => rfl
    · exact special_withLog (fun _ => rfl) fun o => returnFromInterrupt_withLog n ds o.st
    · exact special_withLog (fun _ => rfl) fun _ => rfl
    · exact special_withLog (fun _ => rfl) fun o => writeLoc_withLog n ds o.st o.la _
    · refine special_withLog (fun _ => rfl) fun o => ?_
      simp only [Single.withLog_va, Single.withLog_devices]
      cases o.st.devices[o.va.toNat]? <;> rfl
    · refine special_withLog (fun _ => rfl) fun o => ?_
      simp only [Single.withLog_va, Single.withLog_devices]
      cases o.st.devices[o.va.toNat]? with
      | none => rfl
      | some d => exact dispatchDevice_withLog n ds o.st o.va.toNat d

/-! ### The step -/

theorem skipCycle_withLog : skipCycle (s.withLog n ds) = mapNext (State.withLog n ds) (skipCycle s) := by
  rw [skipCycle, skipCycle, ← finish_map]
  exact congrArg finish (bind_commute (nextWord_withLog n ds s) fun _ => rfl)

/-- What the fetch phase leaves, with the log replaced. -/
def Machine.Fetched.withLog (n : Nat) (ds : List Diag) (r : Fetched) : Fetched := { r with st := r.st.withLog n ds }

theorem fetch_withLog (s : State) : fetch (s.withLog n ds) = (fetch s).map (Fetched.withLog n ds) :=
  bind_commute (nextWord_withLog n ds s) fun r =>
    bind_commute (nextWords_withLog n ds r.2 (extraWords r.1)) fun _ => rfl

/-- The same outcome but for the log: the same diagnostics appended to those before, `old` and `ds`, and nothing
else. -/
def SameButLog (n : Nat) (ds old : List Diag) (o o' : Host.Outcome State Fault Refusal) : Prop :=
  match o with
  | .next t => ∃ new, t.diags = old ++ new ∧ o' = .next (t.withLog n (ds ++ new))
  | .fault f => o' = .fault f
  | .refused r => o' = .refused r

/-- An outcome that commutes with the replacement and emits nothing. -/
theorem SameButLog.of_mapNext {o : Host.Outcome State Fault Refusal} (h : ∀ t, o = .next t → t.diags = s.diags) :
    SameButLog n ds s.diags o (mapNext (State.withLog n ds) o) := by
  cases o with
  | next t => exact ⟨[], by simp [h t rfl], by simp [mapNext]⟩
  | fault f => rfl
  | refused r => rfl

/-- A reserved encoding: its operands are read and one diagnostic is emitted (R126). -/
theorem SameButLog.of_addDiag {α : Type} {x : Except Fault α} {st : α → State} {g : α → α} {d : Diag}
    (hst : ∀ a, st (g a) = (st a).withLog n ds) (hx : ∀ a, x = .ok a → (st a).diags = s.diags) :
    SameButLog n ds s.diags (finish (x >>= fun a => .ok ((st a).addDiag d)))
      (finish (x.map g >>= fun a => .ok ((st a).addDiag d))) := by
  cases x with
  | error f => rfl
  | ok a =>
    refine ⟨[d], congrArg (· ++ [d]) (hx a rfl), ?_⟩
    have hdiag : (st (g a)).addDiag d = ((st a).addDiag d).withLog n (ds ++ [d]) := by rw [hst]; rfl
    exact congrArg Host.Outcome.next hdiag

theorem runDecoded_withLog (p w : Word) (d : Decoded) :
    SameButLog n ds s.diags (runDecoded p w d s) (runDecoded p w d (s.withLog n ds)) := by
  cases d with
  | instr i =>
    have hexec := exec_withLog (n := n) (ds := ds) (s := s) i
    simp only [runDecoded, hexec]
    exact .of_mapNext fun t ht => (exec_writesControl ht).engine.diags
  | reservedBasic o b a =>
    simp only [runDecoded, execReservedBasic, operands_withLog]
    exact .of_addDiag (fun _ => rfl) fun o ho => (operands_env ho).diags
  | reservedSpecial o a =>
    simp only [runDecoded, execReservedSpecial, operand_withLog]
    exact .of_addDiag (fun _ => rfl) fun o ho => (operand_env ho).diags

theorem deliverInterrupt_diags {t : State} (h : deliverInterrupt s = .ok t) : t.diags = s.diags := by
  rcases deliverInterrupt_cases s with ⟨e, -⟩ | ⟨msg, rest, -, -, ⟨-, e⟩ | ⟨-, e⟩⟩ <;> rw [e] at h
  · cases h; rfl
  · cases h; rfl
  · obtain ⟨-, -, -, -, -, -, -, -, -, hdiag, -, -⟩ := enterInterrupt_ok h
    exact hdiag

theorem normalCycle_withLog : SameButLog n ds s.diags (normalCycle s) (normalCycle (s.withLog n ds)) := by
  have hphases : (deliverInterrupt (s.withLog n ds) >>= fetch) =
      (deliverInterrupt s >>= fetch).map (Fetched.withLog n ds) :=
    bind_commute (deliverInterrupt_withLog n ds s) fetch_withLog
  unfold normalCycle
  rw [hphases]
  cases hr : deliverInterrupt s >>= fetch with
  | error f => rfl
  | ok r =>
    obtain ⟨s1, hd, hf⟩ := bind_eq_ok.1 hr
    obtain ⟨-, -, -, henv, -⟩ := fetch_ok hf
    have hdiags : r.st.diags = s1.diags := henv.diags
    have hrun := runDecoded_withLog (n := n) (ds := ds) (s := r.st) r.p r.w r.d
    rwa [hdiags, deliverInterrupt_diags hd] at hrun

/-- Before its cycle is counted, a running machine's step does the same whatever the log. -/
theorem cycleBody_withLog :
    SameButLog n ds s.diags (if s.skip then skipCycle s else normalCycle s)
      (if s.skip then skipCycle (s.withLog n ds) else normalCycle (s.withLog n ds)) := by
  split
  · rw [skipCycle_withLog]
    exact .of_mapNext fun t ht => (skipCycle_next ht).1.diags
  · exact normalCycle_withLog

end WithLog

/-- Settles O60: every phase of the step commutes with replacing the counter and the diagnostics, and the count and the
reserved encodings only add to them. -/
theorem counterAndDiagnosticsAreNeverRead : Obligations.CounterAndDiagnosticsAreNeverRead := by
  unfold Obligations.CounterAndDiagnosticsAreNeverRead
  intro s n ds
  change SameButLog (n + 1) ds s.diags (step s) (step (s.withLog n ds))
  have hrun : (s.withLog n ds).running = s.running := rfl
  have hskip : (s.withLog n ds).skip = s.skip := rfl
  have hbody := cycleBody_withLog (n := n) (ds := ds) (s := s)
  unfold step cycle
  rw [hrun, hskip]
  split
  case isFalse => rfl
  case isTrue =>
    cases ho : (if s.skip then skipCycle s else normalCycle s) with
    | next t =>
      rw [ho] at hbody
      obtain ⟨new, hdiags, hnext⟩ := hbody
      rw [hnext]
      exact ⟨new, hdiags, rfl⟩
    | fault f =>
      rw [ho] at hbody
      exact congrArg countOutcome hbody
    | refused r =>
      rw [ho] at hbody
      exact congrArg countOutcome hbody

end Sys2Proof
end

section
/-! The functions of the ALU instructions, on words (R141 to R162). -/

namespace Sys2Proof

open Machine

/-! ### From integers to words -/

theorem w16_mul (t u : Int) : w16 (t * u) = w16 t * w16 u := BitVec.ofInt_mul t u

theorem w16_sub (v u : Word) : w16 ((v.toNat : Int) - u.toNat) = v - u := by
  rw [Int.sub_eq_add_neg, w16_toNat_add, w16, BitVec.ofInt_neg, BitVec.ofInt_natCast, BitVec.ofNat_toNat,
    BitVec.setWidth_eq, BitVec.sub_eq_add_neg]

@[simp] theorem w16_natCast (n : Nat) : w16 (n : Int) = BitVec.ofNat 16 n := BitVec.ofInt_natCast 16 n

@[simp] theorem w16_s16 (v : Word) : w16 (s16 v) = v := BitVec.ofInt_toInt

theorem highWord_eq (t : Int) : highWord t = w16 (t / 65536) := by
  rw [highWord, Int.shiftRight_eq_div_pow]
  rfl

theorem highWord_natCast (n : Nat) : highWord n = BitVec.ofNat 16 (n / 65536) := by
  rw [highWord_eq, ← w16_natCast]
  rfl

/-! ### The functions, each in word arithmetic -/

theorem fAdd_eq (va vb e : Word) :
    fAdd va vb e = (BitVec.ofNat 16 ((va.toNat + vb.toNat) % 0x10000),
      if va.toNat + vb.toNat > 0xffff then 1 else 0) := by
  have hmod : BitVec.ofNat 16 ((va.toNat + vb.toNat) % 0x10000) = BitVec.ofNat 16 (va.toNat + vb.toNat) := by
    apply BitVec.eq_of_toNat_eq
    simp
  rw [hmod, Nat.add_comm, ← w16_natCast]
  rfl

theorem fSub_eq (va vb e : Word) : fSub va vb e = (vb - va, if vb.toNat < va.toNat then 0xffff else 0) := by
  have hborrow : ((vb.toNat : Int) - va.toNat < 0) ↔ vb.toNat < va.toNat := by omega
  simp only [fSub, w16_sub, hborrow]

theorem fMul_eq (va vb e : Word) :
    fMul va vb e = (vb * va, BitVec.ofNat 16 (vb.toNat * va.toNat / 65536)) := by
  have hlow : w16 ((vb.toNat * va.toNat : Nat) : Int) = vb * va := by
    rw [Int.natCast_mul, w16_mul, w16_toNat, w16_toNat]
  simp only [fMul, hlow, highWord_natCast]

theorem fMli_eq (va vb e : Word) : fMli va vb e = (vb * va, BitVec.ofInt 16 (vb.toInt * va.toInt / 65536)) := by
  simp only [fMli, w16_mul, w16_s16, highWord_eq]

theorem fDiv_eq {va : Word} (h : va ≠ 0) (vb e : Word) :
    fDiv va vb e = (vb / va, BitVec.ofNat 16 (vb.toNat * 65536 / va.toNat)) := by
  simp only [fDiv, h, if_false, w16_natCast, BitVec.udiv_def]

theorem fMod_eq {va : Word} (h : va ≠ 0) (vb e : Word) : fMod va vb e = (vb % va, 0) := by
  simp only [fMod, h, if_false, w16_natCast, BitVec.umod_def]

theorem fDvi_eq {va : Word} (h : va ≠ 0) (vb e : Word) :
    fDvi va vb e =
      (BitVec.ofInt 16 (vb.toInt.tdiv va.toInt), BitVec.ofInt 16 ((vb.toInt * 65536).tdiv va.toInt)) := if_neg h

theorem fMdi_eq {va : Word} (h : va ≠ 0) (vb e : Word) :
    fMdi va vb e = (BitVec.ofInt 16 (vb.toInt.tmod va.toInt), 0) := by
  rw [fMdi, if_neg h]

/-- The bits a shift to the right leaves in EX (R153, R154): those below the point. -/
theorem shr_fraction (v : Word) (k : Nat) :
    w16 (((v.toNat <<< 16) >>> k : Nat) : Int) = BitVec.ofNat 16 (v.toNat * 65536 / 2 ^ k) := by
  rw [w16_natCast, Nat.shiftRight_eq_div_pow, Nat.shiftLeft_eq]

theorem fShr_eq (va vb e : Word) :
    fShr va vb e = (vb >>> va.toNat, BitVec.ofNat 16 (vb.toNat * 65536 / 2 ^ va.toNat)) := by
  have hres : w16 ((vb.toNat >>> va.toNat : Nat) : Int) = vb >>> va.toNat := by
    rw [w16_natCast, ← BitVec.toNat_ushiftRight, BitVec.ofNat_toNat, BitVec.setWidth_eq]
  simp only [fShr, hres, shr_fraction]

theorem fAsr_eq (va vb e : Word) :
    fAsr va vb e = (vb.sshiftRight va.toNat, BitVec.ofNat 16 (vb.toNat * 65536 / 2 ^ va.toNat)) := by
  simp only [fAsr, shr_fraction]
  rfl

theorem fShl_eq (va vb e : Word) :
    fShl va vb e = (vb <<< va.toNat, BitVec.ofNat 16 (vb.toNat * 2 ^ va.toNat / 65536)) := by
  have hres : w16 ((vb.toNat <<< va.toNat : Nat) : Int) = vb <<< va.toNat := by
    apply BitVec.eq_of_toNat_eq
    rw [w16_natCast, BitVec.toNat_ofNat, BitVec.toNat_shiftLeft]
  have hhigh : w16 (((vb.toNat <<< va.toNat) >>> 16 : Nat) : Int) =
      BitVec.ofNat 16 (vb.toNat * 2 ^ va.toNat / 65536) := by
    rw [w16_natCast, Nat.shiftRight_eq_div_pow, Nat.shiftLeft_eq]
  simp only [fShl, hres, hhigh]

theorem fAdx_eq (va vb e : Word) :
    fAdx va vb e = (vb + va + e, if vb.toNat + va.toNat + e.toNat > 0xffff then 1 else 0) := by
  have hres : w16 ((vb.toNat + va.toNat + e.toNat : Nat) : Int) = vb + va + e := by
    rw [w16_natCast, BitVec.ofNat_add, BitVec.ofNat_add]
    simp only [BitVec.ofNat_toNat, BitVec.setWidth_eq]
  simp only [fAdx, hres]

theorem fSbx_eq (va vb e : Word) :
    fSbx va vb e = (vb - va + e,
      if vb.toNat + e.toNat < va.toNat then 0xffff
      else if vb.toNat + e.toNat > va.toNat + 0xffff then 1 else 0) := by
  have hres : w16 ((vb.toNat : Int) - va.toNat + e.toNat) = vb - va + e := by
    rw [w16, BitVec.ofInt_add]
    exact congrArg₂ (· + ·) (w16_sub vb va) (w16_toNat e)
  have hborrow : ((vb.toNat : Int) - va.toNat + e.toNat < 0) ↔ vb.toNat + e.toNat < va.toNat := by omega
  have hcarry : ((vb.toNat : Int) - va.toNat + e.toNat > 0xffff) ↔ vb.toNat + e.toNat > va.toNat + 0xffff := by omega
  simp only [fSbx, hres, hborrow, hcarry]

/-! ### Laws of the arithmetic -/

/-- Quotient and remainder in integers give words that give the dividend back: word arithmetic is integer arithmetic
modulo 65536. -/
theorem w16_mul_add {x q r : Int} {va vb : Word} (ha : w16 x = va) (hb : w16 (x * q + r) = vb) :
    va * w16 q + w16 r = vb := by
  rw [← ha, ← w16_mul, ← hb]
  exact (BitVec.ofInt_add _ _).symm

/-- Settles O33: the integer division laws, floor and truncating, taken modulo 65536. -/
theorem divisionIdentity : Obligations.DivisionIdentity := by
  unfold Obligations.DivisionIdentity
  intro va vb e h
  simp only [fDiv, fMod, fDvi, fMdi, h, if_false]
  constructor
  · refine w16_mul_add (x := va.toNat) (w16_toNat va) ?_
    rw [← Int.natCast_mul, ← Int.natCast_add, Nat.div_add_mod, w16_toNat]
  · refine w16_mul_add (x := s16 va) (w16_s16 va) ?_
    rw [Int.mul_tdiv_add_tmod, w16_s16]

/-- Settles O38: the high word of a product is in range, so that nothing is lost when it is brought back to a word. -/
theorem productHighAndLowWords : Obligations.ProductHighAndLowWords := by
  unfold Obligations.ProductHighAndLowWords
  intro va vb e
  refine ⟨?unsigned, ?signed, ?low⟩
  case unsigned =>
    have hlt : vb.toNat * va.toNat < 65536 * 65536 := Nat.mul_lt_mul'' vb.isLt va.isLt
    have hdiv : vb.toNat * va.toNat / 65536 < 65536 := Nat.div_lt_of_lt_mul hlt
    rw [fMul_eq, BitVec.toNat_ofNat, BitVec.toNat_mul, Nat.mod_eq_of_lt hdiv]
    exact Nat.div_add_mod' _ _
  case signed =>
    have hlo : -(2 ^ 30) ≤ vb.toInt * va.toInt := BitVec.le_toInt_mul_toInt
    have hhi : vb.toInt * va.toInt ≤ 2 ^ 30 := BitVec.toInt_mul_toInt_le
    have hhigh : (BitVec.ofInt 16 (vb.toInt * va.toInt / 65536)).toInt = vb.toInt * va.toInt / 65536 :=
      BitVec.toInt_ofInt_eq_self (by decide) (by omega) (by omega)
    have hlow : ((vb * va).toNat : Int) = vb.toInt * va.toInt % 65536 := by
      have hword : w16 (vb.toInt * va.toInt) = vb * va :=
        (w16_mul _ _).trans (congrArg₂ (· * ·) (w16_s16 vb) (w16_s16 va))
      rw [← hword, w16, BitVec.toNat_ofInt]
      omega
    rw [fMli_eq, hhigh, hlow]
    exact Int.mul_comm 65536 _ ▸ Int.mul_ediv_add_emod _ _
  case low => rw [fMli_eq, fMul_eq]

/-- Settles O39: each addition's result and carry are its sum, in digits to the base 65536. -/
theorem addThenAdxIsWideAdd : Obligations.AddThenAdxIsWideAdd := by
  unfold Obligations.AddThenAdxIsWideAdd
  intro la ha lb hb e
  have hcarry : ∀ t : Nat, t < 2 * 65536 → (if t > 0xffff then (1 : Word) else 0).toNat = t / 65536 := by
    intro t ht
    split
    · exact (by omega : 1 = t / 65536)
    · exact (by omega : 0 = t / 65536)
  have hla := la.isLt
  have hlb := lb.isLt
  have hha := ha.isLt
  have hhb := hb.isLt
  have hcin : (fAdd la lb e).2.toNat = (lb.toNat + la.toNat) / 65536 := hcarry _ (by omega)
  have hlow : (fAdd la lb e).1.toNat = (lb.toNat + la.toNat) % 65536 := by
    rw [fAdd, w16_natCast, BitVec.toNat_ofNat]
  generalize hc : (fAdd la lb e).2 = c at hcin ⊢
  have hcout : (fAdx ha hb c).2.toNat = (hb.toNat + ha.toNat + c.toNat) / 65536 := hcarry _ (by omega)
  have hhigh : (fAdx ha hb c).1.toNat = (hb.toNat + ha.toNat + c.toNat) % 65536 := by
    rw [fAdx, w16_natCast, BitVec.toNat_ofNat]
  rw [hlow, hcout, hhigh]
  omega

end Sys2Proof
end

section
/-! The operands (R106, R107 to R120): the codes that name a register or a literal, and the order of resolution. -/

namespace Sys2Proof

open Machine

theorem decodeOperand_reg {c : Nat} (h : c < 0x08) (x : Word) : decodeOperand c x = .reg (Reg.ofCode c) := if_pos h

/-- The codes of the inline literals take no extra word (R81). -/
theorem xw_of_ge {c : Nat} (h : 0x20 ≤ c) : xw c = 0 := if_neg (by omega)

/-- Settles O14: each code decodes to its operand, which the resolver and the locations are evaluated on. -/
theorem registerAndLiteralOperands : Obligations.RegisterAndLiteralOperands := by
  unfold Obligations.RegisterAndLiteralOperands
  intro pos x s
  refine ⟨fun c hc => ?reg, ⟨rfl, rfl⟩, ⟨rfl, rfl⟩, ⟨rfl, rfl⟩, ⟨rfl, rfl⟩, fun c hc _ => ?lit,
    ⟨fun _ => rfl, rfl, rfl, rfl, fun _ => rfl, rfl⟩, fun v => ⟨fun _ => rfl, rfl, rfl, rfl, rfl⟩⟩
  case reg =>
    rw [decodeOperand_reg hc]
    exact ⟨rfl, xw_of_lt (by omega)⟩
  case lit =>
    rw [decodeOperand_inline hc]
    exact ⟨rfl, xw_of_ge hc⟩

/-- An operand's location does not depend on memory (R131). -/
theorem resolve_setMem (pos : Pos) (o : Operand) (s : State) (m : Memory) :
    resolve pos o (s.setMem m) = ((resolve pos o s).1, (resolve pos o s).2.setMem m) := by
  cases o <;> cases pos <;> rfl

/-- No device watches: both values are those that stand in the two locations after both resolutions. -/
theorem operands_val {b a : Operand} {s : State} (h : quietPair b a s = true) :
    operands b a s = .ok ⟨(locate b a s).la, (locate b a s).lb, valA b a s, valB b a s, (locate b a s).st⟩ := by
  obtain ⟨ha, hb⟩ := Bool.and_eq_true_iff.1 h
  exact operands_quiet ha hb

/-- Settles O16: a is resolved in the state given, b in the one that leaves, and both values are read after that. -/
theorem operandsResolvedBeforeRead : Obligations.OperandsResolvedBeforeRead := by
  unfold Obligations.OperandsResolvedBeforeRead
  intro a b n s
  have hsp : (resolve .asA a s).2.sp = s.sp + spMove .asA a := by rw [resolve_state]; rfl
  refine ⟨?_, ?_, rfl, ?_, ?_, ?_, fun m => ?_, locate_state b a s, rfl, fun o ho => ?_, operands_val⟩
  · exact congrArg State.sp (resolve_state .asB b s)
  · exact hsp
  · exact congrArg (fun v => Loc.mem (v + n)) hsp
  · exact congrArg Loc.mem hsp
  · exact congrArg Loc.mem (BitVec.add_sub_cancel s.sp 1).symm
  · simp only [locate, resolve_setMem, and_self]
  · obtain ⟨-, -, hva, -⟩ := operands_ok ho
    exact hva

end Sys2Proof
end

section
/-! The ALU instructions and the conditionals: their results and what they leave unchanged (R140 to R192). -/

namespace Sys2Proof

open Machine Machine.State

/-! ### The common rule of the ALU instructions (R140) -/

/-- The common rule in both directions: it answers exactly where both values can be read and the result written. -/
theorem aluEffect_eq_ok {f : AluFn} {b a : Operand} {s t : State} :
    aluEffect f b a s = .ok t ↔
      ∃ o u, operands b a s = .ok o ∧ writeLoc o.lb (f o.va o.vb s.ex).1 o.st = .ok u ∧
        t = u.setEx (f o.va o.vb s.ex).2 := by
  have hex : ∀ {o}, operands b a s = .ok o → o.st.ex = s.ex := fun ho => (operands_env ho).ex
  simp only [aluEffect, bind_eq_ok, Except.ok.injEq]
  constructor
  · rintro ⟨o, ho, u, hu, rfl⟩
    rw [hex ho] at hu ⊢
    exact ⟨o, u, ho, hu, rfl⟩
  · rintro ⟨o, u, ho, hu, rfl⟩
    rw [← hex ho] at hu ⊢
    exact ⟨o, ho, u, hu, rfl⟩

/-- Settles O28: every ALU instruction executes by the common rule, STI and STD with one update more. -/
theorem aluCommonRule : Obligations.AluCommonRule := by
  unfold Obligations.AluCommonRule
  refine fun b a s t => ⟨fun i f hi => ?_, fun i d hi => ?_⟩
  · rw [exec_of_mem_alus hi, finish_eq_next]
    exact aluEffect_eq_ok
  · rw [exec_of_mem_indexMoves hi, finish_eq_next, bind_eq_ok]
    constructor
    · rintro ⟨u, hu, ht⟩
      obtain ⟨o, w, ho, hw, rfl⟩ := aluEffect_eq_ok.1 hu
      exact ⟨o, w, ho, hw, (Except.ok.inj ht).symm⟩
    · rintro ⟨o, w, ho, hw, rfl⟩
      exact ⟨w.setEx 0, aluEffect_eq_ok.2 ⟨o, w, ho, hw, rfl⟩, rfl⟩

section Quiet

variable {b a : Operand} {i : Instr} {s : State}

/-- No device watches the operands: an ALU instruction with function `f` gives the state with result `r` and EX `x`. -/
theorem alu_quiet {f : AluFn} {r x : Word} (hi : exec i s = finish (aluEffect f b a s)) (hq : quietPair b a s = true)
    (hf : f (valA b a s) (valB b a s) s.ex = (r, x)) : exec i s = .next (aluState b a s r x) := by
  rw [hi, aluEffect_quiet hq, hf]
  rfl

/-- ... and STI and STD set and then move I and J. -/
theorem indexMove_quiet {d : Word} (hi : exec i s = finish (do let t ← aluEffect fSet b a s; .ok (stepIndexes d t)))
    (hq : quietPair b a s = true) : exec i s = .next (stepIndexes d (aluState b a s (valA b a s) 0)) := by
  rw [hi, aluEffect_quiet hq]
  rfl

/-- No device watches the operands: a conditional with predicate `p` leaves what resolution does, and `skip`. -/
theorem conditional_quiet {p : Word → Word → Bool} (hi : exec i s = finish (condEffect p b a s))
    (hq : quietPair b a s = true) :
    exec i s = .next { (locate b a s).st with skip := s.skip || !p (valA b a s) (valB b a s) } := by
  have hskip : (locate b a s).st.skip = s.skip := by rw [locate_state]; rfl
  rw [hi, condEffect_quiet hq, finish_ok, ← hskip]
  cases p (valA b a s) (valB b a s)
  · simp [State.setSkip]
  · simp

end Quiet

/-! ### Results (R141 to R159) -/

/-- Settles O29: SET's function is its source operand. -/
theorem setWritesValueAndClearsEx : Obligations.SetWritesValueAndClearsEx := by
  unfold Obligations.SetWritesValueAndClearsEx
  refine fun b a s => ⟨fieldO_firstWord_basic rfl, fun hq => alu_quiet rfl hq rfl, fun t h => ?_⟩
  obtain ⟨o, u, ho, hu, rfl⟩ := aluEffect_eq_ok.1 (finish_eq_next.1 h)
  exact ⟨rfl, o, u, ho, hu, rfl⟩

/-- Settles O30: ADD's function is the sum and its carry. -/
theorem addWritesSumAndCarry : Obligations.AddWritesSumAndCarry := by
  unfold Obligations.AddWritesSumAndCarry
  refine fun b a s => ⟨fieldO_firstWord_basic rfl, fun hq => alu_quiet rfl hq (fAdd_eq _ _ _), fun t h => ?_⟩
  obtain ⟨o, u, ho, hu, rfl⟩ := aluEffect_eq_ok.1 (finish_eq_next.1 h)
  rw [fAdd_eq] at hu ⊢
  exact ⟨o, u, ho, hu, rfl⟩

/-- Settles O31: the three functions in word arithmetic, the borrow and the high words taken from exact integers. -/
theorem subMulMliResults : Obligations.SubMulMliResults := by
  unfold Obligations.SubMulMliResults
  exact fun b a s hq => ⟨alu_quiet rfl hq (fSub_eq _ _ _), alu_quiet rfl hq (fMul_eq _ _ _),
    alu_quiet rfl hq (fMli_eq _ _ _)⟩

/-- Settles O32: by the divisor, zero or not. -/
theorem divisionResults : Obligations.DivisionResults := by
  unfold Obligations.DivisionResults
  intro b a s hq
  constructor
  · intro h0
    refine ⟨alu_quiet rfl hq ?_, alu_quiet rfl hq ?_, alu_quiet rfl hq ?_, alu_quiet rfl hq ?_⟩
    · exact if_pos h0
    · exact if_pos h0
    · exact congrArg (·, 0) (if_pos h0)
    · exact congrArg (·, 0) (if_pos h0)
  · intro h0
    exact ⟨alu_quiet rfl hq (fDiv_eq h0 _ _), alu_quiet rfl hq (fDvi_eq h0 _ _), alu_quiet rfl hq (fMod_eq h0 _ _),
      alu_quiet rfl hq (fMdi_eq h0 _ _)⟩

/-- Settles O34: the three functions are the bitwise operations themselves. -/
theorem bitwiseResults : Obligations.BitwiseResults := by
  unfold Obligations.BitwiseResults
  exact fun b a s hq => ⟨alu_quiet rfl hq rfl, alu_quiet rfl hq rfl, alu_quiet rfl hq rfl⟩

/-- Settles O35: a shift of exact integers is the word's shift, and EX holds the bits it moves out. -/
theorem shiftResults : Obligations.ShiftResults := by
  unfold Obligations.ShiftResults
  exact fun b a s hq => ⟨alu_quiet rfl hq (fShr_eq _ _ _), alu_quiet rfl hq (fAsr_eq _ _ _),
    alu_quiet rfl hq (fShl_eq _ _ _)⟩

/-- Settles O36: the sums in word arithmetic, carry and borrow tested on exact integers. -/
theorem adxSbxResults : Obligations.AdxSbxResults := by
  unfold Obligations.AdxSbxResults
  exact fun b a s hq => ⟨alu_quiet rfl hq (fAdx_eq _ _ _), alu_quiet rfl hq (fSbx_eq _ _ _)⟩

/-- Settles O37: STD moves by -1. -/
theorem stiStdResults : Obligations.StiStdResults := by
  unfold Obligations.StiStdResults
  refine fun b a s hq => ⟨indexMove_quiet rfl hq, ?_⟩
  simp only [BitVec.sub_eq_add_neg]
  exact indexMove_quiet rfl hq

/-- Settles O42: each conditional's predicate, of b compared to a. -/
theorem conditionalResults : Obligations.ConditionalResults := by
  unfold Obligations.ConditionalResults
  intro b a s i p hq hi
  have hall : ∀ q ∈ [(Instr.ifb b a, decide (valB b a s &&& valA b a s ≠ 0)),
      (.ifc b a, decide (valB b a s &&& valA b a s = 0)),
      (.ife b a, decide (valB b a s = valA b a s)), (.ifn b a, decide (valB b a s ≠ valA b a s)),
      (.ifg b a, (valA b a s).ult (valB b a s)), (.ifa b a, (valA b a s).slt (valB b a s)),
      (.ifl b a, (valB b a s).ult (valA b a s)), (.ifu b a, (valB b a s).slt (valA b a s))],
      exec q.1 s = .next { (locate b a s).st with skip := s.skip || !q.2 } := by
    simp only [List.forall_mem_cons]
    exact ⟨conditional_quiet (p := pIfb) rfl hq, conditional_quiet (p := pIfc) rfl hq,
      conditional_quiet (p := pIfe) rfl hq, conditional_quiet (p := pIfn) rfl hq,
      conditional_quiet (p := pIfg) rfl hq, conditional_quiet (p := pIfa) rfl hq,
      conditional_quiet (p := pIfl) rfl hq, conditional_quiet (p := pIfu) rfl hq, List.forall_mem_nil _⟩
  exact hall _ hi

/-! ### Frames -/

theorem resolve_eq_reg {pos : Pos} {o : Operand} {s : State} {r : Reg} (h : (resolve pos o s).1 = .reg r) :
    o = .reg r := by
  cases o <;> cases pos <;> cases h <;> rfl

theorem resolve_eq_sp {pos : Pos} {o : Operand} {s : State} (h : (resolve pos o s).1 = .sp) : o = .sp := by
  cases o <;> cases pos <;> cases h <;> rfl

theorem resolve_eq_pc {pos : Pos} {o : Operand} {s : State} (h : (resolve pos o s).1 = .pc) : o = .pc := by
  cases o <;> cases pos <;> cases h <;> rfl

section AluState

variable (b a : Operand) (s : State) (r x : Word)

theorem aluState_get {q : Reg} (h : b ≠ .reg q) : (aluState b a s r x).x.get q = s.x.get q := by
  have hne : (locate b a s).lb ≠ .reg q := fun e => h (resolve_eq_reg e)
  rw [aluState, State.setEx_x, pokeLoc_get_ne r _ hne, locate_state]
  rfl

theorem aluState_sp (h : b ≠ .sp) : (aluState b a s r x).sp = s.sp + spMove .asA a + spMove .asB b := by
  have hne : (locate b a s).lb ≠ .sp := fun e => h (resolve_eq_sp e)
  obtain ⟨hsp, -⟩ := pokeLoc_other (locate b a s).lb r (locate b a s).st
  rw [aluState, State.setEx_sp, hsp hne, locate_state]
  rfl

theorem aluState_pc (h : b ≠ .pc) : (aluState b a s r x).pc = s.pc := by
  have hne : (locate b a s).lb ≠ .pc := fun e => h (resolve_eq_pc e)
  obtain ⟨-, hpc, -⟩ := pokeLoc_other (locate b a s).lb r (locate b a s).st
  rw [aluState, State.setEx_pc, hpc hne, locate_state]
  rfl

/-- The core's part of an ALU instruction touches no device and no message, and one cell of memory at most. -/
theorem aluState_quiet : (aluState b a s r x).irqq = s.irqq ∧ (aluState b a s r x).dev = s.dev ∧
    ∀ addr : Word, (locate b a s).lb ≠ .mem addr → (aluState b a s r x).mem.read addr = s.mem.read addr := by
  obtain ⟨-, -, -, -, hirqq, -, -, -, -, hdev, -, -⟩ := pokeLoc_other (locate b a s).lb r (locate b a s).st
  refine ⟨?_, ?_, fun addr hne => ?_⟩
  · rw [aluState, State.setEx_irqq, hirqq, locate_state]
    rfl
  · rw [aluState, State.setEx_dev, hdev, locate_state]
    rfl
  · rw [aluState, State.setEx_mem, pokeLoc_read_ne r _ hne, locate_state]
    rfl

end AluState

theorem stepIndexes_get {q : Reg} (hI : q ≠ .I) (hJ : q ≠ .J) (d : Word) (s : State) :
    (stepIndexes d s).x.get q = s.x.get q := by
  simp [stepIndexes, hI, hJ]

theorem eq_of_mem_indexMoves {b a : Operand} {i : Instr} {d : Word} (h : (i, d) ∈ indexMoves b a) :
    i = .sti b a ∨ i = .std b a := by
  simp only [indexMoves, List.mem_cons, Prod.mk.injEq, List.not_mem_nil, or_false] at h
  exact h.imp And.left And.left

/-- Settles O40: the core's part of an ALU instruction, then the devices' part; and the former alone where no device
watches. -/
theorem aluFrame : Obligations.AluFrame := by
  unfold Obligations.AluFrame
  intro b a s t i hi h
  have hi' : i ∈ (alus b a).map Prod.fst ++ (indexMoves b a).map Prod.fst := hi
  rcases List.mem_append.1 hi' with hi' | hi'
  · obtain ⟨⟨_, f⟩, hf, rfl⟩ := List.mem_map.1 hi'
    obtain ⟨vb, henv, -⟩ := alu_next hf h
    have hframe := (SameFrame.aluState b a s _ _).env henv
    refine ⟨fun r hr _ => ?_, fun hsp => henv.sp.trans (aluState_sp b a s _ _ hsp),
      fun hpc => henv.pc.trans (aluState_pc b a s _ _ hpc), hframe.toSameControl, hframe.toSameEngine, fun hq => ?_⟩
    · rw [henv.x]
      exact aluState_get b a s _ _ hr
    · obtain rfl := Host.Outcome.next.inj ((alu_quiet (exec_of_mem_alus hf s) hq rfl).symm.trans h)
      exact aluState_quiet b a s _ _
  · obtain ⟨⟨_, d⟩, hd, rfl⟩ := List.mem_map.1 hi'
    obtain ⟨henv, -⟩ := indexMove_next hd h
    have hframe := ((SameFrame.aluState b a s (valA b a s) 0).trans (.stepIndexes d _)).env henv
    refine ⟨fun r hr hIJ => ?_, fun hsp => henv.sp.trans (aluState_sp b a s (valA b a s) 0 hsp),
      fun hpc => henv.pc.trans (aluState_pc b a s (valA b a s) 0 hpc), hframe.toSameControl, hframe.toSameEngine,
      fun hq => ?_⟩
    · obtain ⟨hI, hJ⟩ := hIJ (eq_of_mem_indexMoves hd)
      rw [henv.x, stepIndexes_get hI hJ]
      exact aluState_get b a s _ _ hr
    · obtain rfl := Host.Outcome.next.inj ((indexMove_quiet (exec_of_mem_indexMoves hd s) hq).symm.trans h)
      exact aluState_quiet b a s (valA b a s) 0

/-- Settles O43: a conditional leaves what resolution does, and `skip` set or not. -/
theorem conditionalFrame : Obligations.ConditionalFrame := by
  unfold Obligations.ConditionalFrame
  intro b a s t i hi h
  have hi' : i ∈ (conditionals b a).map Prod.fst := hi
  obtain ⟨⟨_, p⟩, hp, rfl⟩ := List.mem_map.1 hi'
  have hquiet : quietPair b a s = true →
      t.irqq = s.irqq ∧ t.dev = s.dev ∧ ∀ addr : Word, t.mem.read addr = s.mem.read addr := by
    intro hq
    obtain rfl := Host.Outcome.next.inj ((conditional_quiet (exec_of_mem_conditionals hp s) hq).symm.trans h)
    rw [locate_state]
    exact ⟨rfl, rfl, fun _ => rfl⟩
  obtain ⟨henv | henv, -⟩ := conditional_next hp h <;> rw [locate_state] at henv
  · exact ⟨henv.x, henv.sp, henv.pc, henv.ex, henv.ia, henv.iaq, henv.running, .inl henv.skip,
      ⟨henv.cycles, henv.devices, henv.diags, henv.irqq⟩, hquiet⟩
  · exact ⟨henv.x, henv.sp, henv.pc, henv.ex, henv.ia, henv.iaq, henv.running, .inr henv.skip,
      ⟨henv.cycles, henv.devices, henv.diags, henv.irqq⟩, hquiet⟩

end Sys2Proof
end

section
/-! The special instructions (R200 to R220): their results, where no device watches, and what they leave unchanged. -/

namespace Sys2Proof

open Machine Machine.State

/-- The first word of a special-form instruction, as its fields shifted into place (R71). -/
theorem firstWord_special {i : Instr} (hb : i.opB = none) (hwf : i.opA.wfA = true) :
    i.firstWord.toNat = i.opA.code * 1024 ||| i.opcode * 32 := by
  have hcode := Operand.code_lt_64 hwf
  have hop := i.opcode_lt
  have hor : 1024 * i.opA.code + i.opcode * 32 = 1024 * i.opA.code ||| i.opcode * 32 :=
    Nat.two_pow_add_eq_or_of_lt (i := 10) (by omega) _
  rw [Nat.mul_comm _ 1024, ← hor]
  simp only [Instr.firstWord, hb, BitVec.toNat_ofNat]
  omega

/-! ### The common rule -/

section Common

variable {i : Instr} {a : Operand} {e : Single → Except Fault State} {s t : State}

theorem special_eq_next (hi : exec i s = finish (operand a s >>= e)) :
    exec i s = .next t ↔ ∃ o, operand a s = .ok o ∧ e o = .ok t := by
  rw [hi, finish_eq_next, bind_eq_ok]

/-- The own effect of a special instruction may be written with what the operand's reading leaves alone. -/
theorem special_common {e' : Single → Except Fault State} (hi : exec i s = finish (operand a s >>= e))
    (he : ∀ o : Single, o.st.ia = s.ia → o.st.devices = s.devices → e o = e' o) :
    exec i s = .next t ↔ ∃ o, operand a s = .ok o ∧ o.va = val a s ∧ e' o = .ok t := by
  rw [special_eq_next hi]
  refine exists_congr fun o => and_congr_right fun ho => ?_
  obtain ⟨-, hva, henv, -⟩ := operand_ok ho
  rw [he o henv.ia henv.devices]
  exact (and_iff_right hva).symm

/-- What a special instruction's own effect receives where no device watches the operand. -/
def quietSingle (a : Operand) (s : State) : Single :=
  ⟨(resolve .asA a s).1, val a s, s.setSp (s.sp + spMove .asA a)⟩

theorem special_quiet {r : Host.Outcome State Fault Refusal} (hi : exec i s = finish (operand a s >>= e))
    (hq : quietOne a s = true) (hr : finish (e (quietSingle a s)) = r) : exec i s = r := by
  rw [hi, operand_val hq]
  exact hr

theorem special_quiet_next (hi : exec i s = finish (operand a s >>= e)) (hq : quietOne a s = true)
    (h : exec i s = .next t) : e (quietSingle a s) = .ok t :=
  finish_eq_next.1 ((special_quiet hi hq rfl).symm.trans h)

/-- A quiet operand is written without a notification. -/
theorem writeLoc_quietSingle (hq : quietOne a s = true) (v : Word) :
    writeLoc (quietSingle a s).la v (quietSingle a s).st =
      .ok (pokeLoc (resolve .asA a s).1 v (s.setSp (s.sp + spMove .asA a))) :=
  writeLoc_quiet hq

end Common

/-- Settles O46: each of the eight reads its operand and then has its own effect. -/
theorem specialCommonRule : Obligations.SpecialCommonRule := by
  unfold Obligations.SpecialCommonRule
  intro a s t i e hi
  have hall : ∀ q ∈ ([(Instr.int a, fun o => irq o.va o.st),
      (.iag a, fun o => writeLoc o.la s.ia o.st),
      (.ias a, fun o => .ok { o.st with ia := o.va }),
      (.rfi a, fun o => returnFromInterrupt o.st),
      (.iaq a, fun o => .ok { o.st with iaq := o.va != 0 }),
      (.hwn a, fun o => writeLoc o.la (BitVec.ofNat 16 s.devices.length) o.st),
      (.hwq a, fun o => if h : o.va.toNat < s.devices.length
        then .ok (loadDescriptor s.devices[o.va.toNat].descriptor o.st) else .error (.noSuchDevice o.va)),
      (.hwi a, fun o => if h : o.va.toNat < s.devices.length
        then dispatchDevice o.va.toNat s.devices[o.va.toNat] o.st else .error (.noSuchDevice o.va))] :
        List (Instr × (Single → Except Fault State))),
      exec q.1 s = .next t ↔ ∃ o, operand a s = .ok o ∧ o.va = val a s ∧ q.2 o = .ok t := by
    simp only [List.forall_mem_cons]
    refine ⟨special_common rfl fun _ _ _ => rfl, special_common rfl fun o hia _ => ?_,
      special_common rfl fun _ _ _ => rfl, special_common rfl fun _ _ _ => rfl, special_common rfl fun o _ _ => ?_,
      special_common rfl fun o _ hdev => ?_, special_common rfl fun o _ hdev => ?_,
      special_common rfl fun o _ hdev => ?_, List.forall_mem_nil _⟩
    · rw [hia]
    · have hne : decide (o.va ≠ 0) = (o.va != 0) := decide_not
      rw [hne]
      rfl
    · rw [hdev]
    · by_cases hlt : o.va.toNat < s.devices.length
      · simp only [hdev, List.getElem?_eq_getElem hlt, dif_pos hlt]
      · simp only [hdev, List.getElem?_eq_none (Nat.not_lt.1 hlt), dif_neg hlt]
    · by_cases hlt : o.va.toNat < s.devices.length
      · simp only [hdev, List.getElem?_eq_getElem hlt, dif_pos hlt]
      · simp only [hdev, List.getElem?_eq_none (Nat.not_lt.1 hlt), dif_neg hlt]
  exact hall _ hi

/-! ### Results -/

/-- Settles O44: the push is the write below SP. -/
theorem jsrPushesAndJumps : Obligations.JsrPushesAndJumps := by
  unfold Obligations.JsrPushesAndJumps
  refine fun a s => ⟨firstWord_special (i := .jsr a) rfl, fun hq hst => ?_, fun t => ?_⟩
  · have hpush := push_quiet (v := s.pc) (s := s.setSp (s.sp + spMove .asA a)) hst
    exact special_quiet rfl hq (finish_eq_next.2 (bind_eq_ok.2 ⟨_, hpush, rfl⟩))
  · rw [special_eq_next rfl]
    refine exists_congr fun o => ?_
    simp only [bind_eq_ok, Except.ok.injEq, eq_comm (b := t), exists_and_left]
    rfl

/-- Settles O47: the queue's test, with and without room. -/
theorem intQueuesMessage : Obligations.IntQueuesMessage := by
  unfold Obligations.IntQueuesMessage
  refine fun a s hq => ⟨fun hroom => ?_, fun hfull => ?_⟩
  · exact special_quiet rfl hq (finish_eq_next.2 (irq_eq_ok.2 ⟨hroom, rfl⟩))
  · have hirq : irq (val a s) (s.setSp (s.sp + spMove .asA a)) = .error .interruptQueueOverflow := if_pos hfull
    exact special_quiet rfl hq (congrArg finish hirq)

/-- Settles O48: IAG's write is raw where no device watches, and IAS and IAQ write no location. -/
theorem interruptControlResults : Obligations.InterruptControlResults := by
  unfold Obligations.InterruptControlResults
  refine fun a s hq => ⟨?_, special_quiet rfl hq rfl, ?_⟩
  · exact special_quiet rfl hq (congrArg finish (writeLoc_quietSingle hq s.ia))
  · have hne : decide (val a s ≠ 0) = (val a s != 0) := decide_not
    rw [← hne]
    exact special_quiet rfl hq rfl

/-- Settles O49: the two pops, where no device watches their cells. -/
theorem rfiPopsAThenPc : Obligations.RfiPopsAThenPc := by
  unfold Obligations.RfiPopsAThenPc
  intro a s hq hA hPc
  have hreturn := returnFromInterrupt_quiet (s := s.setSp (s.sp + spMove .asA a)) hA hPc
  rw [State.setSp_sp, BitVec.add_assoc (s.sp + spMove .asA a)] at hreturn
  exact special_quiet rfl hq (congrArg finish hreturn)

/-- The two words of a 32-bit number (R216). -/
theorem words_of_32 (v : BitVec 32) :
    v.setWidth 16 = BitVec.ofNat 16 (v.toNat % 65536) ∧ (v >>> 16).setWidth 16 = BitVec.ofNat 16 (v.toNat / 65536) := by
  constructor
  · apply BitVec.eq_of_toNat_eq
    simp
  · apply BitVec.eq_of_toNat_eq
    simp [Nat.shiftRight_eq_div_pow]

/-- Settles O50: by the look-up of the device in the registry. -/
theorem deviceEnumerationResults : Obligations.DeviceEnumerationResults := by
  unfold Obligations.DeviceEnumerationResults
  refine fun a s hq => ⟨?_, fun d hd => ?_, fun hnone => ?_⟩
  · exact special_quiet rfl hq (congrArg finish (writeLoc_quietSingle hq _))
  · obtain ⟨hidlo, hidhi⟩ := words_of_32 d.descriptor.id
    obtain ⟨hmlo, hmhi⟩ := words_of_32 d.descriptor.manufacturer
    have hd' : (quietSingle a s).st.devices[(quietSingle a s).va.toNat]? = some d := hd
    refine special_quiet rfl hq ?_
    simp only [hd', ← hidlo, ← hidhi, ← hmlo, ← hmhi]
    rfl
  · have hd' : (quietSingle a s).st.devices[(quietSingle a s).va.toNat]? = none := List.getElem?_eq_none hnone
    refine special_quiet rfl hq ?_
    simp only [hd']
    rfl

section Dispatch

variable {k : Nat} {d : Device} {s : State} {h : Handler (DevState × RegFile × Memory) DispatchReaction}
  {r : DispatchReaction}

/-- A dispatch to a device with the capability takes its whole answer, if the queue has room for its requests (R218). -/
theorem dispatchDevice_room (hcap : d.interrupt = some h)
    (hr : r = h.answer Config.interrupt (s.devState k, s.regFile, s.mem))
    (hroom : s.irqq.length + r.irqs.length ≤ Config.irqQueueMax) :
    dispatchDevice k d s = .ok ((((s.setDev k r.dev).setRegFile r.regs).setMem (s.mem.writeAll r.writes)).setIrqq
      (s.irqq ++ r.irqs)) := by
  simp only [dispatchDevice, hcap, ← hr]
  exact irqAll_eq_ok.2 ⟨.inr hroom, rfl⟩

/-- ... and has no next state if it has not (R237). -/
theorem dispatchDevice_overflow (hcap : d.interrupt = some h)
    (hr : r = h.answer Config.interrupt (s.devState k, s.regFile, s.mem))
    (hle : s.irqq.length ≤ Config.irqQueueMax) (hfull : Config.irqQueueMax < s.irqq.length + r.irqs.length) :
    dispatchDevice k d s = .error .interruptQueueOverflow := by
  simp only [dispatchDevice, hcap, ← hr]
  exact irqAll_overflow hle hfull

end Dispatch

/-- Settles O51: by the look-up of the device and its capability. -/
theorem hwiDispatchResults : Obligations.HwiDispatchResults := by
  unfold Obligations.HwiDispatchResults
  refine fun a s hq => ⟨fun hnone => ?_, fun d hd hcap => ?_, fun d h r hd hcap hr => ?_⟩
  · have hd' : (quietSingle a s).st.devices[(quietSingle a s).va.toNat]? = none := List.getElem?_eq_none hnone
    refine special_quiet rfl hq ?_
    simp only [hd']
    rfl
  · have hd' : (quietSingle a s).st.devices[(quietSingle a s).va.toNat]? = some d := hd
    refine special_quiet rfl hq ?_
    simp only [hd', dispatchDevice, hcap]
    rfl
  · have hd' : (quietSingle a s).st.devices[(quietSingle a s).va.toNat]? = some d := hd
    refine ⟨fun hroom => special_quiet rfl hq ?_, fun hle hfull => special_quiet rfl hq ?_⟩
    · simp only [hd']
      exact finish_eq_next.2 (dispatchDevice_room hcap hr hroom)
    · simp only [hd']
      exact congrArg finish (dispatchDevice_overflow (s := (quietSingle a s).st) hcap hr hle hfull)

/-! ### HCF -/

/-- A stopped machine has no step (R101). -/
theorem step_stopped {s : State} (h : s.running = false) : step s = .fault .notRunning := by
  simp [step, cycle, h]

/-- Settles O45: HCF clears `running`, which no other instruction writes. -/
theorem hcfHalts : Obligations.HcfHalts := by
  unfold Obligations.HcfHalts
  refine fun a s => ⟨firstWord_special (i := .hcf a) rfl, fun hq => special_quiet rfl hq rfl, fun t => ?common,
    fun t h => ?frame, fun s1 r t hskip hd hf hr h => ?step, fun i t h hne => ?alone⟩
  case common =>
    rw [special_eq_next rfl]
    refine exists_congr fun o => and_congr_right fun _ => ?_
    rw [Except.ok.injEq, eq_comm]
    rfl
  case frame =>
    obtain ⟨henv, -⟩ := hcf_next h
    exact ⟨⟨henv.x, rfl, henv.pc, henv.ex, henv.ia, henv.irqq, henv.iaq, henv.skip, rfl, henv.cycles, henv.devices,
      henv.diags⟩, henv.running, henv.sp⟩
  case step =>
    obtain ⟨hrun, -⟩ := step_cases h
    rw [step_normal hrun hskip hd hf, hr] at h
    obtain ⟨u, hu, rfl⟩ := countOutcome_eq_next.1 h
    obtain ⟨henv, -⟩ := hcf_next hu
    obtain ⟨-, -, -, fenv, -⟩ := fetch_ok hf
    have hcyc : s1.cycles = s.cycles := (deliverInterrupt_next hd).1
    exact ⟨henv.running, henv.pc.trans fenv.pc,
      congrArg (· + 1) (henv.cycles.trans (fenv.cycles.trans hcyc)), fenv.irqq.trans henv.irqq,
      step_stopped henv.running⟩
  case alone =>
    by_contra hno
    exact hne ((exec_writesControl h).running fun c hc => hno ⟨c, hc⟩)

/-! ### Frames -/

section Frames

variable {a : Operand} {s t : State}

theorem jsr_frame (h : exec (.jsr a) s = .next t) :
    t.x = s.x ∧ t.ex = s.ex ∧ t.sp = s.sp + spMove .asA a - 1 ∧ s.SameControl t ∧ s.SameEngine t ∧
      (quietOne a s = true → s.quiet (s.sp + spMove .asA a - 1) = true →
        ∀ addr : Word, addr ≠ s.sp + spMove .asA a - 1 → t.mem.read addr = s.mem.read addr) := by
  obtain ⟨henv, -⟩ := jsr_next h
  have hframe := (SameFrame.setRegFile s ⟨s.x, s.sp + spMove .asA a - 1, val a s, s.ex⟩).env henv
  refine ⟨henv.x, henv.ex, henv.sp, hframe.toSameControl, hframe.toSameEngine, fun hq hst addr hne => ?_⟩
  obtain ⟨u, hu, ht⟩ := bind_eq_ok.1 (special_quiet_next rfl hq h)
  have hpush := push_quiet (v := s.pc) (s := s.setSp (s.sp + spMove .asA a)) hst
  obtain rfl := Except.ok.inj (hpush.symm.trans hu)
  cases ht
  exact Memory.read_write_ne s.mem s.pc hne

/-- HCF, INT, IAS and IAQ write to no operand. -/
theorem control_frame {i : Instr} (hi : i ∈ [Instr.hcf a, .int a, .ias a, .iaq a]) (h : exec i s = .next t) :
    t.x = s.x ∧ t.ex = s.ex ∧ t.pc = s.pc ∧ t.sp = s.sp + spMove .asA a ∧ s.SameEngine t ∧
      (i ≠ .hcf a → t.running = s.running) ∧ (i ≠ .ias a → t.ia = s.ia) ∧ (i ≠ .iaq a → t.iaq = s.iaq) ∧
      t.skip = s.skip ∧
      (quietOne a s = true → t.dev = s.dev ∧ (i ≠ .int a → t.irqq = s.irqq) ∧
        ∀ addr : Word, t.mem.read addr = s.mem.read addr) := by
  have hengine := (exec_writesControl h).engine
  simp only [List.mem_cons, List.not_mem_nil, or_false] at hi
  rcases hi with rfl | rfl | rfl | rfl
  case inl =>
    obtain ⟨henv, -⟩ := hcf_next h
    refine ⟨henv.x, henv.ex, henv.pc, henv.sp, hengine, fun hne => absurd rfl hne, fun _ => henv.ia, fun _ => henv.iaq,
      henv.skip, fun hq => ?_⟩
    obtain rfl := Except.ok.inj (special_quiet_next rfl hq h)
    exact ⟨rfl, fun _ => rfl, fun _ => rfl⟩
  case inr.inl =>
    obtain ⟨henv, -⟩ := int_next h
    refine ⟨henv.x, henv.ex, henv.pc, henv.sp, hengine, fun _ => henv.running, fun _ => henv.ia, fun _ => henv.iaq,
      henv.skip, fun hq => ?_⟩
    obtain ⟨-, rfl⟩ := irq_eq_ok.1 (special_quiet_next rfl hq h)
    exact ⟨rfl, fun hne => absurd rfl hne, fun _ => rfl⟩
  case inr.inr.inl =>
    obtain ⟨henv, -⟩ := ias_next h
    refine ⟨henv.x, henv.ex, henv.pc, henv.sp, hengine, fun _ => henv.running, fun hne => absurd rfl hne,
      fun _ => henv.iaq, henv.skip, fun hq => ?_⟩
    obtain rfl := Except.ok.inj (special_quiet_next rfl hq h)
    exact ⟨rfl, fun _ => rfl, fun _ => rfl⟩
  case inr.inr.inr =>
    obtain ⟨henv, -⟩ := iaq_next h
    refine ⟨henv.x, henv.ex, henv.pc, henv.sp, hengine, fun _ => henv.running, fun _ => henv.ia,
      fun hne => absurd rfl hne, henv.skip, fun hq => ?_⟩
    obtain rfl := Except.ok.inj (special_quiet_next rfl hq h)
    exact ⟨rfl, fun _ => rfl, fun _ => rfl⟩

/-- A word written to the operand's location, as IAG and HWN do, changes that location alone. -/
theorem write_operand_frame {i : Instr} {v : Word} {w : State → Word}
    (hi : exec i s = finish (operand a s >>= fun o => writeLoc o.la (w o.st) o.st))
    (hw : ∀ u, (s.setSp (s.sp + spMove .asA a)).EnvStep u → w u = v) (h : exec i s = .next t) :
    (∀ r, a ≠ .reg r → t.x.get r = s.x.get r) ∧ (a ≠ .ex → t.ex = s.ex) ∧ (a ≠ .pc → t.pc = s.pc) ∧
      (a ≠ .sp → t.sp = s.sp + spMove .asA a) ∧ s.SameControl t ∧ s.SameEngine t ∧
      (quietOne a s = true → t.dev = s.dev ∧ t.irqq = s.irqq ∧
        ∀ addr : Word, (resolve .asA a s).1 ≠ .mem addr → t.mem.read addr = s.mem.read addr) := by
  obtain ⟨henv, -⟩ := write_operand_next hi hw h
  have hframe := ((SameFrame.setSp (s.sp + spMove .asA a) s).trans (.pokeLoc (resolve .asA a s).1 v _)).env henv
  obtain ⟨hsp, hpc, hex, -, hirqq, -, -, -, -, hdev, -, -⟩ :=
    pokeLoc_other (resolve .asA a s).1 v (s.setSp (s.sp + spMove .asA a))
  refine ⟨fun r hr => ?_, fun hne => henv.ex.trans (hex fun e => hne (resolve_eq_ex e)),
    fun hne => henv.pc.trans (hpc fun e => hne (resolve_eq_pc e)),
    fun hne => henv.sp.trans (hsp fun e => hne (resolve_eq_sp e)), hframe.toSameControl, hframe.toSameEngine,
    fun hq => ?_⟩
  · rw [henv.x]
    exact pokeLoc_get_ne v _ fun e => hr (resolve_eq_reg e)
  · have hwrite := special_quiet_next hi hq h
    rw [hw (quietSingle a s).st (.refl _), writeLoc_quietSingle hq] at hwrite
    obtain rfl := Except.ok.inj hwrite
    exact ⟨hdev, hirqq, fun addr hne => pokeLoc_read_ne v _ hne⟩

theorem rfi_frame (h : exec (.rfi a) s = .next t) :
    (∀ r, r ≠ .A → t.x.get r = s.x.get r) ∧ t.ex = s.ex ∧ t.sp = s.sp + spMove .asA a + 2 ∧ t.ia = s.ia ∧
      t.skip = s.skip ∧ t.running = s.running ∧ s.SameEngine t ∧
      (quietOne a s = true → s.quiet (s.sp + spMove .asA a) = true → s.quiet (s.sp + spMove .asA a + 1) = true →
        t.dev = s.dev ∧ t.irqq = s.irqq ∧ ∀ addr : Word, t.mem.read addr = s.mem.read addr) := by
  obtain ⟨v, w, henv, -⟩ := rfi_next h
  refine ⟨fun r hr => ?_, henv.ex, henv.sp, henv.ia, henv.skip, henv.running, (exec_writesControl h).engine,
    fun hq hA hPc => ?_⟩
  · rw [henv.x]
    exact Regs.get_set_ne s.x v hr
  · have hreturn := returnFromInterrupt_quiet (s := s.setSp (s.sp + spMove .asA a)) hA hPc
    obtain rfl := Except.ok.inj (hreturn.symm.trans (special_quiet_next rfl hq h))
    exact ⟨rfl, rfl, fun _ => rfl⟩

theorem hwq_frame (h : exec (.hwq a) s = .next t) :
    t.x.Z = s.x.Z ∧ t.x.I = s.x.I ∧ t.x.J = s.x.J ∧ t.ex = s.ex ∧ t.pc = s.pc ∧
      t.sp = s.sp + spMove .asA a ∧ s.SameControl t ∧ s.SameEngine t ∧
      (quietOne a s = true → t.dev = s.dev ∧ t.irqq = s.irqq ∧
        ∀ addr : Word, t.mem.read addr = s.mem.read addr) := by
  obtain ⟨d, henv, -⟩ := hwq_next h
  have hframe := (SameFrame.setRegFile s
    ⟨(loadDescriptor d s).x, s.sp + spMove .asA a, s.pc, s.ex⟩).env henv
  refine ⟨(congrArg Regs.Z henv.x).trans rfl, (congrArg Regs.I henv.x).trans rfl, (congrArg Regs.J henv.x).trans rfl,
    henv.ex, henv.pc, henv.sp,
    hframe.toSameControl, hframe.toSameEngine, fun hq => ?_⟩
  have hload := special_quiet_next rfl hq h
  split at hload
  case h_1 => cases hload
  case h_2 =>
    obtain rfl := Except.ok.inj hload
    exact ⟨rfl, rfl, fun _ => rfl⟩

end Frames

/-- Settles O52: the frames of the nine instructions, IAG's and HWN's being one. -/
theorem specialFrame : Obligations.SpecialFrame := by
  unfold Obligations.SpecialFrame
  refine fun a s t => ⟨jsr_frame, fun i hi => control_frame hi, ?_, rfi_frame, hwq_frame⟩
  simp only [List.forall_mem_cons]
  exact ⟨write_operand_frame (w := State.ia) rfl fun _ henv => henv.ia,
    write_operand_frame (w := fun u => BitVec.ofNat 16 u.devices.length) rfl fun _ henv => by rw [henv.devices],
    List.forall_mem_nil _⟩

end Sys2Proof
end

section
/-! Interrupt delivery, entry and return (R233 to R243). -/

namespace Sys2Proof

open Machine Machine.State

/-- Settles O25: delivery's tests of the queue, of queueing and of IA. -/
theorem interruptHeldOrDropped : Obligations.InterruptHeldOrDropped := by
  unfold Obligations.InterruptHeldOrDropped
  refine fun s => ⟨fun hheld => ?_, fun msg rest hiaq hirqq hia => ?_⟩
  · rcases deliverInterrupt_cases s with ⟨e, -⟩ | ⟨msg, rest, hiaq, hirqq, -⟩
    · exact e
    · simp [hiaq, hirqq] at hheld
  · have hdrop : deliverInterrupt s = .ok (s.setIrqq rest) := by
      simp only [deliverInterrupt, hiaq, hirqq, State.setIrqq_ia, hia, if_true]
    exact hdrop

section Entry

variable {s t : State} {msg : Word} {rest : List Word}

theorem deliverInterrupt_enters (hiaq : s.iaq = false) (hirqq : s.irqq = msg :: rest) (hia : s.ia ≠ 0) :
    deliverInterrupt s = enterInterrupt msg (s.setIrqq rest) := by
  simp only [deliverInterrupt, hiaq, hirqq, State.setIrqq_ia, hia, if_false]

/-- SP down by two, one push after the other. -/
theorem sub_one_sub_one (v : Word) : v - 1 - 1 = v - 2 := by bv_omega

/-- Entry where no device watches the two stack cells (R240). -/
theorem enterInterrupt_quiet (h1 : s.quiet (s.sp - 1) = true) (h2 : s.quiet (s.sp - 2) = true) :
    enterInterrupt msg s = .ok { s with
      iaq := true
      sp := s.sp - 2
      mem := (s.mem.write (s.sp - 1) s.pc).write (s.sp - 2) s.x.A
      pc := s.ia
      x := s.x.set .A msg } := by
  have hpc := push_quiet (v := s.pc) (s := s.setIaq true) h1
  rw [← sub_one_sub_one] at h2 ⊢
  have hA := push_quiet (v := s.x.A)
    (s := ((s.setIaq true).setSp (s.sp - 1)).setMem (s.mem.write (s.sp - 1) s.pc)) h2
  exact bind_eq_ok.2 ⟨_, hpc, bind_eq_ok.2 ⟨_, hA, rfl⟩⟩

end Entry

/-- Settles O24: delivery enters the handler, with the rest of the queue. -/
theorem interruptEntrySavesPcAndA : Obligations.InterruptEntrySavesPcAndA := by
  unfold Obligations.InterruptEntrySavesPcAndA
  intro s msg rest hiaq hirqq hia
  rw [deliverInterrupt_enters hiaq hirqq hia]
  refine ⟨fun h1 h2 => enterInterrupt_quiet (s := s.setIrqq rest) h1 h2, fun t h => ?_⟩
  obtain ⟨hx, hsp, hpc, hex, hia', hiaq', hskip, hrun, hcyc, hdiag, hq, hk⟩ := enterInterrupt_ok h
  rw [sub_one_sub_one] at hsp
  exact ⟨hx, hsp, hpc, hex, hia', hq, hiaq', hskip, hrun, hcyc, hk.devices, hdiag⟩

@[simp] theorem Regs.set_set (x : Regs) (r : Reg) (v w : Word) : (x.set r v).set r w = x.set r w := by
  cases r <;> rfl

@[simp] theorem Regs.set_get_self (x : Regs) (r : Reg) : x.set r (x.get r) = x := by cases r <;> rfl

theorem spMove_of_ne_stack {pos : Pos} {o : Operand} (h : o ≠ .stack) : spMove pos o = 0 := by
  cases o
  case stack => exact absurd rfl h
  all_goals rfl

/-- Settles O27: the two pops read the two cells that entry pushed. -/
theorem rfiUndoesInterruptEntry : Obligations.RfiUndoesInterruptEntry := by
  unfold Obligations.RfiUndoesInterruptEntry
  intro s t msg rest a hwf hiaq hirqq hia h1 h2 hdel hne hq
  obtain ⟨hentry, -⟩ := interruptEntrySavesPcAndA s msg rest hiaq hirqq hia
  obtain rfl := Except.ok.inj ((hentry h1 h2).symm.trans hdel)
  have hback : s.sp - 2 + 1 = s.sp - 1 := by bv_omega
  have hback' : s.sp - 2 + 2 = s.sp := by bv_omega
  have hcells : s.sp - 1 ≠ s.sp - 2 := by bv_omega
  have hA : ((s.mem.write (s.sp - 1) s.pc).write (s.sp - 2) s.x.A).read (s.sp - 2) = s.x.A :=
    Memory.read_write_same _ _ (Memory.wf_write _ _ hwf)
  have hPc : ((s.mem.write (s.sp - 1) s.pc).write (s.sp - 2) s.x.A).read (s.sp - 1) = s.pc :=
    (Memory.read_write_ne _ _ hcells).trans (Memory.read_write_same _ _ hwf)
  have hset : (s.x.set .A msg).set .A s.x.A = s.x := (Regs.set_set ..).trans (Regs.set_get_self s.x .A)
  have hrfi := rfiPopsAThenPc a _ hq
  simp only [spMove_of_ne_stack hne, add_zero, hback, hback', hA, hPc, hset] at hrfi
  rw [hiaq]
  exact hrfi h2 h1

end Sys2Proof
end

section
/-! The step (R100 to R105, R125 to R127): a normal cycle, a reserved word, a skip and a run of skips. -/

namespace Sys2Proof

open Machine Machine.State

/-- Settles O20: the step begins with the test of `running`. -/
theorem stoppedMachineHasNoStep : Obligations.StoppedMachineHasNoStep := by
  unfold Obligations.StoppedMachineHasNoStep
  refine fun s => ⟨fun hstop => ⟨step_stopped hstop, ?_⟩, fun t h => (step_cases h).1⟩
  simp [singleStep, hstop]

/-- Settles O18: the fetch reads the instruction's words, as many as its encoding has. -/
theorem stepRunsDecodedInstruction : Obligations.StepRunsDecodedInstruction := by
  unfold Obligations.StepRunsDecodedInstruction
  intro s s1 i hrun hskip hdel
  refine ⟨fun hdec hquiet => ?_, fun r hf hr => ?_⟩
  · have hdec' : decode (s1.mem.read s1.pc) (s1.mem.read (s1.pc + 1)) (s1.mem.read (s1.pc + 2)) = .instr i := hdec
    have hlen := length_encode_of_decode hdec'
    rw [hlen] at hquiet ⊢
    rw [step_normal hrun hskip hdel (fetch_quiet hquiet), hdec']
    rfl
  · rw [step_normal hrun hskip hdel hf, hr]
    rfl

/-! ### Reserved words (R126) -/

/-- What a reserved word decodes to: its form and its operands, by the codes in its fields. -/
theorem decode_reserved {w : Word} (h : reservedWord w = true) (x1 x2 : Word) :
    (fieldO w = 0 ∧ ∃ o, decode w x1 x2 = .reservedSpecial o (decodeOperand (fieldA w) x1)) ∨
      (fieldO w ≠ 0 ∧ ∃ o y,
        decode w x1 x2 = .reservedBasic o (decodeOperand (fieldB w) y) (decodeOperand (fieldA w) x1)) := by
  have hno : ∀ i, decode w x1 x2 ≠ .instr i := fun i hi =>
    absurd ((reservedWordsExactly w x1 x2).1 ⟨i, hi⟩) (by rw [h]; decide)
  by_cases h0 : fieldO w = 0
  · refine .inl ⟨h0, BitVec.ofNat 5 (fieldB w), ?_⟩
    cases hs : specialInstr (fieldB w) (decodeOperand (fieldA w) x1) with
    | none => simp only [decode, h0, hs, if_true]
    | some i => exact absurd ((decode_special h0).2 hs) (hno i)
  · refine .inr ⟨h0, BitVec.ofNat 5 (fieldO w), if xw (fieldA w) = 1 then x2 else x1, ?_⟩
    cases hb : basicInstr (fieldO w) (decodeOperand (fieldB w) (if xw (fieldA w) = 1 then x2 else x1))
      (decodeOperand (fieldA w) x1) with
    | none => simp only [decode, h0, hb, if_false]
    | some i => exact absurd ((decode_basic h0).2 hb) (hno i)

/-- SP after the operands of a reserved word: up by one for a POP, down by one for a PUSH. -/
def reservedSp (w sp : Word) : Word :=
  sp + (if fieldA w = 0x18 then 1 else 0) - (if fieldO w ≠ 0 ∧ fieldB w = 0x18 then 1 else 0)

/-- What a reserved word at `p` does, but for the devices: SP as its operands move it, and the diagnostic. -/
def reservedState (p w : Word) (s : State) : State := (s.setSp (reservedSp w s.sp)).addDiag ⟨p, w⟩

theorem spMove_reservedSpecial {w : Word} (h0 : fieldO w = 0) (x sp : Word) :
    sp + spMove .asA (decodeOperand (fieldA w) x) = reservedSp w sp := by
  simp [reservedSp, h0, spMove_asA x (fieldA_lt w)]

theorem spMove_reservedBasic {w : Word} (h0 : fieldO w ≠ 0) (x y sp : Word) :
    sp + spMove .asA (decodeOperand (fieldA w) x) + spMove .asB (decodeOperand (fieldB w) y) = reservedSp w sp := by
  rw [reservedSp, spMove_asA x (fieldA_lt w), spMove_asB y (fieldB_lt w)]
  by_cases hB : fieldB w = 0x18 <;> simp [hB, h0, BitVec.sub_eq_add_neg]

theorem quietLoc_of_quiet {s : State} (h : ∀ a, s.quiet a = true) (l : Loc) : s.quietLoc l = true := by
  cases l
  case mem a => exact h a
  all_goals rfl

/-- The dispatch of a reserved word, where no device watches and in general. -/
theorem runDecoded_reserved {w : Word} (hw : reservedWord w = true) (p x1 x2 : Word) (s : State) :
    ((∀ a, s.quiet a = true) → runDecoded p w (decode w x1 x2) s = .next (reservedState p w s)) ∧
      (∀ t, runDecoded p w (decode w x1 x2) s = .next t → (reservedState p w s).EnvStep t) := by
  rcases decode_reserved hw x1 x2 with ⟨h0, o, hdec⟩ | ⟨h0, o, y, hdec⟩ <;> rw [hdec]
  · rw [reservedState, ← spMove_reservedSpecial h0 x1]
    refine ⟨fun hq => ?_, fun t ht => ?_⟩
    · exact finish_eq_next.2 (bind_eq_ok.2 ⟨_, operand_val (quietLoc_of_quiet hq _), rfl⟩)
    · obtain ⟨q, hq, ht⟩ := bind_eq_ok.1 (finish_eq_next.1 ht)
      obtain ⟨-, -, henv, -⟩ := operand_ok hq
      obtain rfl := Except.ok.inj ht
      exact henv.update (f := (·.addDiag ⟨p, w⟩)) fun _ _ _ _ => rfl
  · rw [reservedState, ← spMove_reservedBasic h0 x1 y]
    refine ⟨fun hq => ?_, fun t ht => ?_⟩
    · rw [← locate_state]
      exact finish_eq_next.2
        (bind_eq_ok.2 ⟨_, operands_quiet (quietLoc_of_quiet hq _) (quietLoc_of_quiet hq _), rfl⟩)
    · obtain ⟨q, hq, ht⟩ := bind_eq_ok.1 (finish_eq_next.1 ht)
      obtain ⟨-, -, -, henv, -⟩ := operands_ok hq
      obtain rfl := Except.ok.inj ht
      exact henv.update (f := (·.addDiag ⟨p, w⟩)) fun _ _ _ _ => rfl

/-- Settles O19: the fetch, the reserved word's dispatch and the count. -/
theorem reservedWordIsReportedNoOp : Obligations.ReservedWordIsReportedNoOp := by
  unfold Obligations.ReservedWordIsReportedNoOp
  rintro s s1 w sp hrun hskip hdel rfl hw hsp
  obtain rfl : reservedSp (s1.mem.read s1.pc) s1.sp = sp := hsp.symm
  refine ⟨fun hq => ?_, fun t h => ?_⟩
  · have hquiet := (runDecoded_reserved hw s1.pc (s1.mem.read (s1.pc + 1)) (s1.mem.read (s1.pc + 2))
      (s1.setPc (s1.pc + BitVec.ofNat 16 (wordLength (s1.mem.read s1.pc))))).1 hq
    rw [step_normal hrun hskip hdel (fetch_quiet fun k _ => hq _), hquiet]
    rfl
  · obtain ⟨-, u, rfl, ⟨hskip', -⟩ | ⟨-, s1', r, hdel', hf, hrd⟩⟩ := step_cases h
    · rw [hskip] at hskip'
      cases hskip'
    · obtain rfl := Except.ok.inj (hdel.symm.trans hdel')
      obtain ⟨hp, hrw, ⟨x1, x2, hd⟩, fenv, -⟩ := fetch_ok hf
      rw [hd, hp, hrw] at hrd
      rw [hrw] at fenv
      have hres := (runDecoded_reserved hw s1.pc x1 x2 r.st).2 u hrd
      have hbefore := fenv.update (f := reservedState s1.pc (s1.mem.read s1.pc)) fun _ _ _ _ => rfl
      exact (hbefore.trans hres).update (f := State.countCycle) fun _ _ _ _ => rfl

/-! ### The skip state (R105) -/

section Skip

variable {s t : State}

/-- What a step in skip state does, but for the devices: PC over the whole instruction, `skip` on through a conditional,
the cycle counted. -/
def skippedState (s : State) : State :=
  { s with
    pc := s.pc + BitVec.ofNat 16 (wordLength (s.mem.read s.pc))
    skip := isConditional (s.mem.read s.pc)
    cycles := s.cycles + 1 }

theorem countCycle_skipOne (s : State) :
    (skipOne (s.mem.read s.pc) (s.setPc (s.pc + 1))).countCycle = skippedState s := by
  rw [skippedState, wordLength, BitVec.ofNat_add, ← BitVec.add_assoc]
  rfl

theorem step_skip_quiet (hrun : s.running = true) (hskip : s.skip = true) (hq : s.quiet s.pc = true) :
    step s = .next (skippedState s) := by
  rw [step_skip hrun hskip, skipCycle, nextWord_quiet hq, ← countCycle_skipOne]
  rfl

theorem step_skip_next (hskip : s.skip = true) (h : step s = .next t) : (skippedState s).EnvStep t := by
  obtain ⟨-, u, rfl, ⟨-, hu⟩ | ⟨hskip', -⟩⟩ := step_cases h
  · rw [← countCycle_skipOne]
    exact (skipCycle_next hu).1.update (f := State.countCycle) fun _ _ _ _ => rfl
  · rw [hskip] at hskip'
    cases hskip'

end Skip

/-- Settles O22: one word is read, and the others are counted. -/
theorem skipStepMeasuresOnly : Obligations.SkipStepMeasuresOnly := by
  unfold Obligations.SkipStepMeasuresOnly
  rintro s w hrun hskip rfl
  exact ⟨step_skip_quiet hrun hskip, fun t h => step_skip_next hskip h⟩

/-- Settles O23: by induction on the number of conditionals, the first of which one step skips. -/
theorem skipRunOfConditionals : Obligations.SkipRunOfConditionals := by
  unfold Obligations.SkipRunOfConditionals
  intro k
  induction k with
  | zero =>
    intro s hrun hskip hq _ hlast
    have hlast' : isConditional (s.mem.read s.pc) = false := hlast
    rw [steps_succ (step_skip_quiet hrun hskip (hq 0 (Nat.le_refl 0))), skippedState, hlast']
    rfl
  | succ k ih =>
    intro s hrun hskip hq hconds hlast
    have hfirst : isConditional (s.mem.read s.pc) = true := hconds 0 (Nat.succ_pos k)
    have hrest := ih (skippedState s) hrun hfirst (fun j hj => hq (j + 1) (Nat.succ_le_succ hj))
      (fun j hj => hconds (j + 1) (Nat.succ_lt_succ hj)) hlast
    have hcycles : s.cycles + (k + 1 + 1) = s.cycles + 1 + (k + 1) := by omega
    rw [steps_succ (step_skip_quiet hrun hskip (hq 0 (Nat.zero_le _))), hrest, hcycles]
    rfl

end Sys2Proof
end
